-- ==== Sys2Proof/Word.lean ====
section
/-!
DEFINITION. The two word types of the machine: 8-bit data and 16-bit addresses
(00_scope.md R7: XLEN = 8, ALEN = 16). All values are unsigned (R9).
-/

namespace Sys2Proof

/-- A data byte: the width of A, X, Y, P and of every memory cell. -/
abbrev Byte := BitVec 8

/-- A 16-bit address: the width of PC and of every effective address. -/
abbrev Addr := BitVec 16

end Sys2Proof
end

