-- ==== Sys2Proof/Config.lean ====
section
/-!
DEFINITION. What is fixed for the life of one machine: the closed sets the opcode table speaks of
(addressing-mode tags, operations, lengths), the parameters a model takes (00_scope.md R8) and the
model's one free value. The values this hardware has are `hardware` in Sys2Proof/Decode.lean.
-/

namespace Sys2Proof

/-- The closed set of ten addressing-mode tags (40_addressing_resolver.md R67). `none` is the
no-addressing sentinel. -/
inductive AddrMode where
  | imm | zp | zpx | zpy | abs | abx | aby | izx | izy | none
deriving DecidableEq, Repr

/-- The seven operations of the executor (43_halt_and_dispatch.md R116). -/
inductive Operation where
  | loadAccumulator
  | storeAccumulator
  | transferAccumulatorToX
  | transferAccumulatorToY
  | incrementX
  | incrementY
  | halt
deriving DecidableEq, Repr

/-- An instruction length: 1, 2 or 3 bytes including the opcode (30_encoding.md R53). -/
inductive InstrLen where
  | one | two | three
deriving DecidableEq, Repr

/-- One entry of OPTABLE: "(addressing-mode tag, total instruction length in bytes including the
opcode)" (00_scope.md R12). -/
structure Descriptor where
  mode : AddrMode
  len  : InstrLen
deriving DecidableEq, Repr

/-- One row of the opcode map (30_encoding.md R58). -/
structure OpcodeRow where
  opcode    : Byte
  operation : Operation
  mode      : AddrMode
  len       : InstrLen
deriving DecidableEq, Repr

/-- The two sizes the memory parameter MEM_SIZE may have (00_scope.md R8; 92_eei_decisions.md D1). -/
inductive MemSize where
  | cells65535
  | cells65536
deriving DecidableEq, Repr

/-- The number of cells: an address is valid when it is below this (20_memory.md R35). -/
def MemSize.cells : MemSize → Nat
  | .cells65535 => 65535
  | .cells65536 => 65536

/-- The open parameters of the core (00_scope.md R8), constant for the life of the machine
(70_reset_and_hazards.md R151). The power-on state, the remaining parameter, is an argument of
`Machine.State.powerOn`. -/
structure Params where
  /-- MEM_SIZE -/
  memSize   : MemSize
  /-- ZP_PTR_WRAP: does the second byte of a zero-page pointer wrap inside the zero page -/
  zpPtrWrap : Bool
  /-- OPTABLE: partial map from opcode byte to descriptor -/
  optable   : Byte → Option Descriptor
  /-- OPSEL: partial map from opcode byte to operation -/
  opsel     : Byte → Option Operation

/-- The free value of the model: the opcode byte on record for the `n`-th error when that error is a
faulting opcode fetch. The record has such a byte (60_exceptions.md R130) and the fetch has read none,
so the spec states no value; nothing constrains this one (DESIGN CHOICE, safe: log entry 12). -/
opaque Config.unreadOpcode : Nat → Byte

end Sys2Proof
end

