-- ==== Sys2Proof/Syntax.lean ====
section
/-!
DEFINITION. The instructions: one constructor for each of the 20 rows of spec/opcode_table.json
(30_encoding.md R58), in the table's order, with the operand its format carries (R53, R54):
`d8` is the operand byte of format F2, `a16` the address of format F3.
-/

namespace Sys2Proof

/-- One instruction of the default opcode map. -/
inductive Instr where
  /-- 0x00 `BRK` (Halt) -/
  | brk
  /-- 0x81 `STA (d8,X)` -/
  | staIzx (d8 : Byte)
  /-- 0x85 `STA d8` -/
  | staZp (d8 : Byte)
  /-- 0x8D `STA a16` -/
  | staAbs (a16 : Addr)
  /-- 0x91 `STA (d8),Y` -/
  | staIzy (d8 : Byte)
  /-- 0x95 `STA d8,X` -/
  | staZpx (d8 : Byte)
  /-- 0x99 `STA a16,Y` -/
  | staAby (a16 : Addr)
  /-- 0x9D `STA a16,X` -/
  | staAbx (a16 : Addr)
  /-- 0xA1 `LDA (d8,X)` -/
  | ldaIzx (d8 : Byte)
  /-- 0xA5 `LDA d8` -/
  | ldaZp (d8 : Byte)
  /-- 0xA8 `TAY` -/
  | tay
  /-- 0xA9 `LDA #d8` -/
  | ldaImm (d8 : Byte)
  /-- 0xAA `TAX` -/
  | tax
  /-- 0xAD `LDA a16` -/
  | ldaAbs (a16 : Addr)
  /-- 0xB1 `LDA (d8),Y` -/
  | ldaIzy (d8 : Byte)
  /-- 0xB5 `LDA d8,X` -/
  | ldaZpx (d8 : Byte)
  /-- 0xB9 `LDA a16,Y` -/
  | ldaAby (a16 : Addr)
  /-- 0xBD `LDA a16,X` -/
  | ldaAbx (a16 : Addr)
  /-- 0xC8 `INY` -/
  | iny
  /-- 0xE8 `INX` -/
  | inx
deriving DecidableEq, Repr

end Sys2Proof
end

