-- ==== Sys2Proof/Decode.lean ====
section
/-!
DEFINITION. Instruction encoding (30_encoding.md): the formats and their lengths, the default opcode
map and the parameters of this hardware, the decoder (total on any bytes, refusing by name) and,
after it, the encoder.
-/

namespace Sys2Proof

/-! ### Bytes and words -/

/-- `{hi, lo}`: the word whose high byte is `hi` and whose low byte is `lo` (00_scope.md R9). -/
def wordOf (hi lo : Byte) : Addr := hi ++ lo

/-- `v[7:0]` -/
def loByte (v : Addr) : Byte := v.extractLsb' 0 8

/-- `v[15:8]` -/
def hiByte (v : Addr) : Byte := v.extractLsb' 8 8

/-- `zext_16(b)` (00_scope.md R9) -/
def zext16 (b : Byte) : Addr := b.setWidth 16

/-! ### Formats and lengths (R53) -/

/-- The length as a number of bytes. -/
def InstrLen.toNat : InstrLen → Nat
  | .one => 1
  | .two => 2
  | .three => 3

/-- `len - 1`: how many operand bytes follow the opcode (R53). -/
def InstrLen.operands : InstrLen → Nat
  | .one => 0
  | .two => 1
  | .three => 2

/-- The length of the format a tag belongs to: F1 for NONE, F3 for ABS, ABX, ABY, F2 for the rest
(R53). -/
def AddrMode.formatLen : AddrMode → InstrLen
  | .none => .one
  | .imm | .zp | .zpx | .zpy | .izx | .izy => .two
  | .abs | .abx | .aby => .three

/-! ### The default opcode map (R58) -/

/-- The 20 rows of R58, in the table's order. Six byte values are the source's (R59); the other
fourteen are marked in the spec as general knowledge (UNVERIFIED, unsafe: log entry 5). -/
def opcodeRows : List OpcodeRow :=
  [ ⟨0x00, .halt, .none, .one⟩,
    ⟨0x81, .storeAccumulator, .izx, .two⟩,
    ⟨0x85, .storeAccumulator, .zp, .two⟩,
    ⟨0x8D, .storeAccumulator, .abs, .three⟩,
    ⟨0x91, .storeAccumulator, .izy, .two⟩,
    ⟨0x95, .storeAccumulator, .zpx, .two⟩,
    ⟨0x99, .storeAccumulator, .aby, .three⟩,
    ⟨0x9D, .storeAccumulator, .abx, .three⟩,
    ⟨0xA1, .loadAccumulator, .izx, .two⟩,
    ⟨0xA5, .loadAccumulator, .zp, .two⟩ ] ++
  [ ⟨0xA8, .transferAccumulatorToY, .none, .one⟩,
    ⟨0xA9, .loadAccumulator, .imm, .two⟩,
    ⟨0xAA, .transferAccumulatorToX, .none, .one⟩,
    ⟨0xAD, .loadAccumulator, .abs, .three⟩,
    ⟨0xB1, .loadAccumulator, .izy, .two⟩,
    ⟨0xB5, .loadAccumulator, .zpx, .two⟩,
    ⟨0xB9, .loadAccumulator, .aby, .three⟩,
    ⟨0xBD, .loadAccumulator, .abx, .three⟩,
    ⟨0xC8, .incrementY, .none, .one⟩,
    ⟨0xE8, .incrementX, .none, .one⟩ ]

/-- The row whose `match` is this opcode byte; every row's mask is 0xFF (R58). -/
def rowOf (op : Byte) : Option OpcodeRow :=
  opcodeRows.find? (fun r => r.opcode == op)

/-- The default OPTABLE (R57, R58). -/
def defaultOptable (op : Byte) : Option Descriptor :=
  (rowOf op).map (fun r => ⟨r.mode, r.len⟩)

/-- The default OPSEL (R57, R58). -/
def defaultOpsel (op : Byte) : Option Operation :=
  (rowOf op).map (fun r => r.operation)

/-- The parameters of this hardware: the defaults of 00_scope.md R8. MEM_SIZE and ZP_PTR_WRAP are
the spec's decisions D1 and D4 (UNVERIFIED, unsafe: log entries 3 and 4). -/
def hardware : Params where
  memSize   := .cells65535
  zpPtrWrap := false
  optable   := defaultOptable
  opsel     := defaultOpsel

/-! ### Decoding -/

/-- Why bytes are not an instruction. Raised by `decode` only: it is a result of decoding, not of
the machine, which turns an opcode it does not support into the error of 60_exceptions.md R126. -/
inductive DecodeError where
  /-- the opcode byte has no descriptor or no operation (R57, R61) -/
  | unsupportedOpcode (op : Byte)
  /-- the bytes end before the operand does -/
  | truncated
  /-- the map pairs an operation with a tag that no row of R58 pairs it with -/
  | unsupportedPairing (o : Operation) (m : AddrMode)
deriving DecidableEq, Repr

/-- Format F2: take `d8` from the bytes after the opcode (R54). -/
def takeD8 (c : Byte → Instr) : List Byte → Except DecodeError (Instr × List Byte)
  | d8 :: rest => .ok (c d8, rest)
  | [] => .error .truncated

/-- Format F3: take `lo`, then `hi`, and assemble `a16` (R54, R55). -/
def takeA16 (c : Addr → Instr) : List Byte → Except DecodeError (Instr × List Byte)
  | lo :: hi :: rest => .ok (c (wordOf hi lo), rest)
  | _ => .error .truncated

/-- The instruction of an operation and a tag, its operand taken from the bytes after the opcode:
the matrix of R66 read row by row. -/
def assemble (o : Operation) (m : AddrMode) (bs : List Byte) :
    Except DecodeError (Instr × List Byte) :=
  match o, m with
  | .halt, .none => .ok (.brk, bs)
  | .transferAccumulatorToX, .none => .ok (.tax, bs)
  | .transferAccumulatorToY, .none => .ok (.tay, bs)
  | .incrementX, .none => .ok (.inx, bs)
  | .incrementY, .none => .ok (.iny, bs)
  | .loadAccumulator, .imm => takeD8 .ldaImm bs
  | .loadAccumulator, .zp => takeD8 .ldaZp bs
  | .loadAccumulator, .zpx => takeD8 .ldaZpx bs
  | .loadAccumulator, .abs => takeA16 .ldaAbs bs
  | .loadAccumulator, .abx => takeA16 .ldaAbx bs
  | .loadAccumulator, .aby => takeA16 .ldaAby bs
  | .loadAccumulator, .izx => takeD8 .ldaIzx bs
  | .loadAccumulator, .izy => takeD8 .ldaIzy bs
  | .storeAccumulator, .zp => takeD8 .staZp bs
  | .storeAccumulator, .zpx => takeD8 .staZpx bs
  | .storeAccumulator, .abs => takeA16 .staAbs bs
  | .storeAccumulator, .abx => takeA16 .staAbx bs
  | .storeAccumulator, .aby => takeA16 .staAby bs
  | .storeAccumulator, .izx => takeD8 .staIzx bs
  | .storeAccumulator, .izy => takeD8 .staIzy bs
  | o, m => .error (.unsupportedPairing o m)

/-- The decoder: the opcode byte selects operation, tag and length by table lookup (R56, R57), the
operand follows. It returns the bytes that are left. -/
def decode : List Byte → Except DecodeError (Instr × List Byte)
  | [] => .error .truncated
  | op :: bs =>
    match rowOf op with
    | none => .error (.unsupportedOpcode op)
    | some r => assemble r.operation r.mode bs

/-- The bytes of a number of `n` bits laid out as the hardware stores them, three bytes (the longest
instruction): bit 0 is the least significant bit of byte 0 (R54), bits from `n` up are 0. -/
def tableBytes (n w : Nat) : List Byte :=
  let v := w % 2 ^ n
  [BitVec.ofNat 8 v, BitVec.ofNat 8 (v / 2 ^ 8), BitVec.ofNat 8 (v / 2 ^ 16)]

/-- The instruction the decoder reads from a word numbered as spec/opcode_table.json numbers it. -/
def decodeTableWord (nbits w : Nat) : Option Instr :=
  match decode (tableBytes nbits w) with
  | .ok (i, _) => some i
  | .error _ => none

/-! ### Encoding -/

/-- The opcode byte of an instruction (the first column of R58). -/
def Instr.opcode : Instr → Byte
  | .brk => 0x00
  | .staIzx _ => 0x81
  | .staZp _ => 0x85
  | .staAbs _ => 0x8D
  | .staIzy _ => 0x91
  | .staZpx _ => 0x95
  | .staAby _ => 0x99
  | .staAbx _ => 0x9D
  | .ldaIzx _ => 0xA1
  | .ldaZp _ => 0xA5
  | .tay => 0xA8
  | .ldaImm _ => 0xA9
  | .tax => 0xAA
  | .ldaAbs _ => 0xAD
  | .ldaIzy _ => 0xB1
  | .ldaZpx _ => 0xB5
  | .ldaAby _ => 0xB9
  | .ldaAbx _ => 0xBD
  | .iny => 0xC8
  | .inx => 0xE8

/-- The operation of an instruction (R58). -/
def Instr.operation : Instr → Operation
  | .brk => .halt
  | .staIzx _ | .staZp _ | .staAbs _ | .staIzy _ | .staZpx _ | .staAby _ | .staAbx _ =>
    .storeAccumulator
  | .ldaIzx _ | .ldaZp _ | .ldaImm _ | .ldaAbs _ | .ldaIzy _ | .ldaZpx _ | .ldaAby _ | .ldaAbx _ =>
    .loadAccumulator
  | .tay => .transferAccumulatorToY
  | .tax => .transferAccumulatorToX
  | .iny => .incrementY
  | .inx => .incrementX

/-- The addressing-mode tag of an instruction (R58). -/
def Instr.mode : Instr → AddrMode
  | .brk | .tay | .tax | .iny | .inx => .none
  | .ldaImm _ => .imm
  | .staZp _ | .ldaZp _ => .zp
  | .staZpx _ | .ldaZpx _ => .zpx
  | .staAbs _ | .ldaAbs _ => .abs
  | .staAbx _ | .ldaAbx _ => .abx
  | .staAby _ | .ldaAby _ => .aby
  | .staIzx _ | .ldaIzx _ => .izx
  | .staIzy _ | .ldaIzy _ => .izy

/-- The length of an instruction in bytes, the opcode included (R53). -/
def Instr.len (i : Instr) : InstrLen := i.mode.formatLen

/-- The operand bytes in the order they lie in memory: `d8`, or `lo` then `hi` (R54). -/
def Instr.operandBytes : Instr → List Byte
  | .brk | .tay | .tax | .iny | .inx => []
  | .staIzx d8 | .staZp d8 | .staIzy d8 | .staZpx d8 => [d8]
  | .ldaIzx d8 | .ldaZp d8 | .ldaImm d8 | .ldaIzy d8 | .ldaZpx d8 => [d8]
  | .staAbs a16 | .staAby a16 | .staAbx a16 => [loByte a16, hiByte a16]
  | .ldaAbs a16 | .ldaAby a16 | .ldaAbx a16 => [loByte a16, hiByte a16]

/-- The encoder: opcode byte, then the operand bytes, by ascending address (R54). -/
def encode (i : Instr) : List Byte := i.opcode :: i.operandBytes

end Sys2Proof
end

