-- ==== Sys2Proof/Machine/Flags.lean ====
section
/-!
DEFINITION. The flag computations: two derived flags of one 8-bit result (10_state.md R24, R25) and
their joint update (42_transfer_increment.md R100). No other flag exists.
-/

namespace Sys2Proof.Machine

/-- Z_BIT (00_scope.md R7) -/
def zBit : Nat := 1

/-- N_BIT (00_scope.md R7) -/
def nBit : Nat := 7

/-- The Zero flag of a status byte (R24). -/
def zeroFlag (p : Byte) : Bool := p.getLsbD zBit

/-- The Negative flag of a status byte (R25). -/
def negativeFlag (p : Byte) : Bool := p.getLsbD nBit

/-- `updateZeroFlag(r)`, in the mask form of R24. -/
def updateZeroFlag (p r : Byte) : Byte := if r = 0 then p ||| 0x02 else p &&& 0xFD

/-- `updateNegativeFlag(r)`, in the mask form of R25. -/
def updateNegativeFlag (p r : Byte) : Byte := if r.getLsbD 7 then p ||| 0x80 else p &&& 0x7F

/-- `SetZN(r)` on the status byte `p` (R100). -/
def setZN (p r : Byte) : Byte := updateNegativeFlag (updateZeroFlag p r) r

end Sys2Proof.Machine
end

