-- ==== Sys2Proof/Machine/State.lean ====
section
/-!
DEFINITION. The complete state of the core as plain data (10_state.md R13), the reasons a step or a
host transaction can end other than by completing, and the state right after reset.
-/

namespace Sys2Proof.Machine

/-- Memory: the cells that differ from what an unwritten cell reads as, by strictly rising address
(10_state.md R29; canonical form: `Memory.wf`). -/
abbrev Memory := List Host.Cell

/-- The position of the sequencer (10_state.md R30). At an instruction boundary it is `fetching`,
`halted` or `faulted`. -/
inductive RunState where
  | fetching | decoding | executing | advancing | halted | faulted
deriving DecidableEq, Repr

/-- What an access, the resolver or a table lookup raises (60_exceptions.md R125), before `raise`
adds the opcode byte and its address. -/
inductive FatalError where
  | unsupportedOpcode
  | invalidAddressingModeUse
  | memoryRangeFault (addr : Addr)
deriving DecidableEq, Repr

/-- The error record of the core (60_exceptions.md R130): one constructor per kind, with the
information R125 and R130 say it holds. `raise` writes it into `State.fault` and the machine goes to
`faulted`, which is a next state the spec describes (R128, R131): no step answers `Outcome.fault`
(log entry 1). -/
inductive Fault where
  /-- Kind 1. Raised by decoding and by the operation lookup for a byte without descriptor or
  operation (R126). Safe: the spec's own error, with the state R131 gives. -/
  | unsupportedOpcode (op : Byte) (opaddr : Addr)
  /-- Kind 2. Raised by the resolver for the tag NONE (R129); never under the default map. Safe. -/
  | invalidAddressingModeUse (op : Byte) (opaddr : Addr)
  /-- Kind 3. Raised by any byte access at an address that is not a cell (R127). `op` is the opcode
  byte of the instruction; where the faulting access is the opcode fetch itself, which reads no byte,
  it is a free value (DESIGN CHOICE, safe: log entry 12). Safe: a faulted run satisfies no claim
  (D2). -/
  | memoryRangeFault (addr : Addr) (opaddr : Addr) (op : Byte)
deriving DecidableEq, Repr

/-- Why the model gives no next state. No instruction of this model is refused: the last three are
answered by the host's transactions (Machine/HostInterface.lean) only. -/
inductive Refusal where
  /-- Raised by an arm of `exec` whose instruction has no meaning yet; no arm does. Safe. -/
  | notModelled (mnemonic : String)
  /-- Raised by `load` for an image of more bytes than lie from 0x8000 to the top: the spec gives it
  no effect (70_reset_and_hazards.md R149, D14). Safe. -/
  | oversizedImage (length : Nat)
  /-- Raised by `hostWrite` while the core is running: the spec forbids it (R153, D20). Safe. -/
  | hostWriteDuringRun
  /-- Raised by `hostWrite` at an address that is not a cell: the spec allows valid cells only
  (R153). Safe. -/
  | hostWriteOutsideMemory (addr : Addr)
deriving DecidableEq, Repr

/-- The state of the core (10_state.md R13). -/
structure State where
  /-- `A`, the accumulator (R14) -/
  a : Byte
  /-- `X`, index register X (R15) -/
  x : Byte
  /-- `Y`, index register Y (R16) -/
  y : Byte
  /-- `P`, the status register (R23) -/
  p : Byte
  /-- `PC`, the program counter (R19) -/
  pc : Addr
  /-- `Mem` (R29) -/
  mem : Memory
  /-- `run_state` (R30) -/
  runState : RunState
  /-- latch: the opcode byte read in Fetching (R31) -/
  op : Byte
  /-- latch: the address `op` was read from (R31) -/
  opaddr : Addr
  /-- latch: the descriptor's addressing-mode tag (R31) -/
  mode : AddrMode
  /-- latch: the descriptor's instruction length (R31) -/
  len : InstrLen
  /-- latch: PC before dispatch (R31, R113) -/
  preDispatchPC : Addr
  /-- the error record, none when no error is recorded (R31, R130) -/
  fault : Option Fault
  /-- the model's own, no state of the spec: how many errors have been raised, which numbers the free
  values (log entry 21) -/
  freeCount : Nat
deriving DecidableEq, Repr

/-- A power-on state (10_state.md R33): registers and memory are arguments, since the spec leaves
them unconstrained; `run_state` is `halted`, nothing has been fetched and no error is recorded. The
latches have no meaning before the first fetch (DESIGN CHOICE, unsafe: log entry 8), and no error has
been raised (the model's own counter, DESIGN CHOICE: log entry 21). -/
def State.powerOn (a x y p : Byte) (pc : Addr) (mem : Memory) : State where
  a := a
  x := x
  y := y
  p := p
  pc := pc
  mem := mem
  runState := .halted
  op := 0x00
  opaddr := 0x0000
  mode := .none
  len := .one
  preDispatchPC := 0x0000
  fault := none
  freeCount := 0

/-- The machine right after reset (10_state.md R32, 70_reset_and_hazards.md R144), with nothing
written to memory. `y` is not written by reset and its power-on value is open (DESIGN CHOICE 0x00,
unsafe: log entry 6); `pc` is the vector, which reads 0x0000 in memory nobody has written (DESIGN
CHOICE, unsafe: log entry 7); the latches have no meaning yet (DESIGN CHOICE, unsafe: log entry 8); the
model's own counter is 0 (DESIGN CHOICE: log entry 21). -/
def State.reset : State where
  a := 0x00
  x := 0x00
  y := 0x00
  p := 0x00
  pc := 0x0000
  mem := []
  runState := .fetching
  op := 0x00
  opaddr := 0x0000
  mode := .none
  len := .one
  preDispatchPC := 0x0000
  fault := none
  freeCount := 0

end Sys2Proof.Machine
end

