-- ==== Sys2Proof/Machine/Ops.lean ====
section
/-!
DEFINITION. The named operations over memory and registers: the cells, the four memory primitives
(20_memory.md R36 to R39), the register updates of the executor, the phases' bookkeeping, taking a
fatal error (60_exceptions.md R128), which nothing returns from but reset, and reset itself
(70_reset_and_hazards.md R144).
-/

namespace Sys2Proof.Machine

/-! ### Cells -/

/-- What a cell that nothing has written reads as. The spec leaves it open (10_state.md R33): DESIGN
CHOICE 0x00, unsafe (log entry 7). -/
def unlistedByte : Byte := 0x00

/-- The content of one cell. -/
def readCell : Memory → Nat → Byte
  | [], _ => unlistedByte
  | (k, v) :: m, a => if k = a then v else readCell m a

/-- Put a cell at its place by address. -/
def insertCell (a : Nat) (v : Byte) : Memory → Memory
  | [] => [(a, v)]
  | (k, u) :: m => if a < k then (a, v) :: (k, u) :: m else (k, u) :: insertCell a v m

/-- Remove the entry of an address, if there is one. -/
def eraseCell (a : Nat) : Memory → Memory
  | [] => []
  | (k, u) :: m => if k = a then eraseCell a m else (k, u) :: eraseCell a m

/-- Store a byte in one cell, keeping the canonical form: the value an unlisted cell reads as is not
listed. -/
def writeCell (m : Memory) (a : Nat) (v : Byte) : Memory :=
  if v = unlistedByte then eraseCell a m else insertCell a v (eraseCell a m)

/-- Addresses at least `lo`, strictly rising, and no entry that an unlisted cell would read as. -/
def Memory.wfFrom : Nat → Memory → Bool
  | _, [] => true
  | lo, (a, v) :: m => decide (lo ≤ a) && (v != unlistedByte) && Memory.wfFrom (a + 1) m

/-- The canonical form of memory. -/
def Memory.wf (m : Memory) : Bool := Memory.wfFrom 0 m

/-- Every listed cell is one of the first `n` (20_memory.md R35: only those exist). -/
def Memory.within (n : Nat) (m : Memory) : Bool := m.all (fun c => decide (c.1 < n))

/-! ### The four memory primitives -/

/-- `MemRead(addr, 1)` (R36). -/
def readByte (k : Params) (m : Memory) (addr : Addr) : Except FatalError Byte :=
  if addr.toNat < k.memSize.cells then .ok (readCell m addr.toNat)
  else .error (.memoryRangeFault addr)

/-- `MemWrite(addr, 1, v)` (R37). -/
def writeByte (k : Params) (m : Memory) (addr : Addr) (v : Byte) : Except FatalError Memory :=
  if addr.toNat < k.memSize.cells then .ok (writeCell m addr.toNat v)
  else .error (.memoryRangeFault addr)

/-- `MemRead(addr, 2)` (R38): the low byte first, the second address modulo 65536. -/
def readWord (k : Params) (m : Memory) (addr : Addr) : Except FatalError Addr :=
  match readByte k m addr with
  | .error e => .error e
  | .ok lo =>
    match readByte k m (addr + 1) with
    | .error e => .error e
    | .ok hi => .ok (wordOf hi lo)

/-- `MemWrite(addr, 2, v)` (R39): two byte writes, the low byte first. The answer is the memory as
the two writes leave it and the error the first failing one raises: a fault of the second leaves the
low byte written. -/
def writeWord (k : Params) (m : Memory) (addr : Addr) (v : Addr) : Memory × Option FatalError :=
  match writeByte k m addr (loByte v) with
  | .error e => (m, some e)
  | .ok m₁ =>
    match writeByte k m₁ (addr + 1) (hiByte v) with
    | .error e => (m₁, some e)
    | .ok m₂ => (m₂, none)

/-- `n` bytes by ascending address, each a `MemRead(addr, 1)` (R52 orders the operand bytes so). -/
def readBytes (k : Params) (m : Memory) (addr : Addr) : Nat → Except FatalError (List Byte)
  | 0 => .ok []
  | n + 1 =>
    match readByte k m addr with
    | .error e => .error e
    | .ok b =>
      match readBytes k m (addr + 1) n with
      | .error e => .error e
      | .ok bs => .ok (b :: bs)

/-! ### Register updates of the executor -/

/-- `A <- v; SetZN(v)` (41_load_store.md R81). -/
def setAccumulator (v : Byte) (s : State) : State := { s with a := v, p := setZN s.p v }

/-- `X <- v; SetZN(v)` (42_transfer_increment.md R101, R103). -/
def setIndexX (v : Byte) (s : State) : State := { s with x := v, p := setZN s.p v }

/-- `Y <- v; SetZN(v)` (42_transfer_increment.md R102, R104). -/
def setIndexY (v : Byte) (s : State) : State := { s with y := v, p := setZN s.p v }

/-- Memory replaced, nothing else. -/
def setMemory (m : Memory) (s : State) : State := { s with mem := m }

/-! ### The bookkeeping of the phases (43_halt_and_dispatch.md R111 to R114) -/

/-- The opcode byte `b` has been read at PC: the end of Fetching (R111). -/
def fetched (b : Byte) (s : State) : State :=
  { s with opaddr := s.pc, op := b, pc := s.pc + 1, runState := .decoding }

/-- The descriptor has been read: the end of Decoding (R112). -/
def decoded (d : Descriptor) (s : State) : State :=
  { s with mode := d.mode, len := d.len, runState := .executing }

/-- `preDispatchPC <- PC`: the start of Executing (R113). -/
def dispatched (s : State) : State := { s with preDispatchPC := s.pc }

/-- Fetching, Decoding and the start of Executing for an opcode byte with its descriptor: the state
in which the operation runs, PC on the first operand byte. -/
def enter (b : Byte) (d : Descriptor) (s : State) : State :=
  dispatched (decoded d (fetched b s))

/-- The operation completed and is not Halt: Executing to Advancing (R110). -/
def executed (s : State) : State := { s with runState := .advancing }

/-- `run_state <- Halted` (R109). -/
def halted (s : State) : State := { s with runState := .halted }

/-- Advancing (R114): if the operation left PC alone, move it past the operand bytes. -/
def advance (s : State) : State :=
  { s with
    pc := if s.pc = s.preDispatchPC then s.pc + BitVec.ofNat 16 s.len.operands else s.pc
    runState := .fetching }

/-! ### Taking a fatal error (60_exceptions.md R128) -/

/-- The opcode byte on record (R130, D11): the latch, or a free value where the error is the opcode
fetch's own, an access that faults in Fetching, and no byte has been read (log entry 12). -/
def recordedOpcode (s : State) : Byte :=
  if s.runState = .fetching then Config.unreadOpcode s.freeCount else s.op

/-- The record of an error (R130), completed from the latches. -/
def faultRecord (e : FatalError) (s : State) : Fault :=
  match e with
  | .unsupportedOpcode => .unsupportedOpcode s.op s.opaddr
  | .invalidAddressingModeUse => .invalidAddressingModeUse s.op s.opaddr
  | .memoryRangeFault addr => .memoryRangeFault addr s.opaddr (recordedOpcode s)

/-- `raise K(info)`: the error record is written and the sequencer goes to Faulted, the rest of the
state is as it is at that point, but for the model's own count of errors (log entry 21). There is no
handler, no vector and no return (R128, R134). -/
def raise (e : FatalError) (s : State) : State :=
  { s with fault := some (faultRecord e s), runState := .faulted, freeCount := s.freeCount + 1 }

/-- The numeric code of an error record (R125; 92_eei_decisions.md D11): 0 is no error. -/
def faultCode : Option Fault → Nat
  | none => 0
  | some (.unsupportedOpcode _ _) => 1
  | some (.invalidAddressingModeUse _ _) => 2
  | some (.memoryRangeFault _ _ _) => 3

/-- The record's `op`: every kind has one (R130, D11). -/
def faultOpcode : Fault → Byte
  | .unsupportedOpcode op _ => op
  | .invalidAddressingModeUse op _ => op
  | .memoryRangeFault _ _ op => op

/-- The record's `opaddr`: every kind has one (R130, D11). -/
def faultOpaddr : Fault → Addr
  | .unsupportedOpcode _ opaddr => opaddr
  | .invalidAddressingModeUse _ opaddr => opaddr
  | .memoryRangeFault _ opaddr _ => opaddr

/-- The record's `addr`, of kind 3 only (R130). -/
def faultAddr : Fault → Option Addr
  | .unsupportedOpcode _ _ => none
  | .invalidAddressingModeUse _ _ => none
  | .memoryRangeFault addr _ _ => some addr

/-! ### Reset (70_reset_and_hazards.md R144) -/

/-- RESET_VECTOR (00_scope.md R7) -/
def resetVector : Addr := 0xFFFC

/-- `Reset`, applied to any state: the only way out of Halted and Faulted (R146). `Y`, memory and the
latches are not written (R145, R32), nor is the model's own count of errors (log entry 21).
The vector's cells exist, so the read cannot fault (R144); were it to, PC would stay. -/
def applyReset (k : Params) (s : State) : State :=
  { s with
    a := 0x00
    x := 0x00
    p := 0x00
    pc := match readWord k s.mem resetVector with
      | .ok v => v
      | .error _ => s.pc
    runState := .fetching
    fault := none }

end Sys2Proof.Machine
end

