-- ==== Sys2Proof/Machine/Operands.lean ====
section
/-!
DEFINITION. The addressing-mode resolver (40_addressing_resolver.md). Each tag's address is one
function of the operand, the index registers and memory; `effectiveAddress` is the resolver's
contract (R67), which reads the operand bytes at PC first. The resolver writes nothing (R79).
-/

namespace Sys2Proof.Machine

/-- `ZpWord(p)` (R78): the pointer whose low byte is at zero-page address `p`. -/
def zpWord (k : Params) (m : Memory) (p : Byte) : Except FatalError Addr :=
  if k.zpPtrWrap then
    match readByte k m (zext16 p) with
    | .error e => .error e
    | .ok lo =>
      match readByte k m (zext16 (p + 1)) with
      | .error e => .error e
      | .ok hi => .ok (wordOf hi lo)
  else readWord k m (zext16 p)

/-- `EA(ZP)` of the operand byte (R69). -/
def eaZp (d8 : Byte) : Addr := zext16 d8

/-- `EA(ZPX)`, `EA(ZPY)` of the operand byte and the index: the sum wraps at 8 bits (R70, R71). -/
def eaZpIndexed (d8 index : Byte) : Addr := zext16 (d8 + index)

/-- `EA(ABX)`, `EA(ABY)` of the operand word and the index: the sum wraps at 16 bits (R73, R74).
Also the last step of `EA(IZY)` (R76). -/
def eaAbsIndexed (a16 : Addr) (index : Byte) : Addr := a16 + zext16 index

/-- `EA(IZX)` of the operand byte: index first, then the pointer (R75). -/
def eaIzx (k : Params) (d8 : Byte) (s : State) : Except FatalError Addr :=
  zpWord k s.mem (d8 + s.x)

/-- `EA(IZY)` of the operand byte: the pointer first, then the index (R76). -/
def eaIzy (k : Params) (d8 : Byte) (s : State) : Except FatalError Addr :=
  match zpWord k s.mem d8 with
  | .error e => .error e
  | .ok deref => .ok (eaAbsIndexed deref s.y)

/-- The operand byte at PC, given to the rest of a tag's rule. -/
def withOperandByte (k : Params) (s : State) (f : Byte → Except FatalError Addr) :
    Except FatalError Addr :=
  match readByte k s.mem s.pc with
  | .error e => .error e
  | .ok d8 => f d8

/-- The operand word at PC, given to the rest of a tag's rule. -/
def withOperandWord (k : Params) (s : State) (f : Addr → Except FatalError Addr) :
    Except FatalError Addr :=
  match readWord k s.mem s.pc with
  | .error e => .error e
  | .ok a16 => f a16

/-- `effectiveAddress(mode, registers, memory)` (R67 to R77), called while PC is the address of the
first operand byte. -/
def effectiveAddress (k : Params) (mode : AddrMode) (s : State) : Except FatalError Addr :=
  match mode with
  | .imm => .ok s.pc
  | .zp => withOperandByte k s (fun d8 => .ok (eaZp d8))
  | .zpx => withOperandByte k s (fun d8 => .ok (eaZpIndexed d8 s.x))
  | .zpy => withOperandByte k s (fun d8 => .ok (eaZpIndexed d8 s.y))
  | .abs => withOperandWord k s (fun a16 => .ok a16)
  | .abx => withOperandWord k s (fun a16 => .ok (eaAbsIndexed a16 s.x))
  | .aby => withOperandWord k s (fun a16 => .ok (eaAbsIndexed a16 s.y))
  | .izx => withOperandByte k s (fun d8 => eaIzx k d8 s)
  | .izy => withOperandByte k s (fun d8 => eaIzy k d8 s)
  | .none => .error .invalidAddressingModeUse

end Sys2Proof.Machine
end

