-- ==== Sys2Proof/Machine/Executor.lean ====
section
/-!
DEFINITION. The executor's seven operations as transformations of the state (43_halt_and_dispatch.md
R113, R116), in the two shapes they are used in: `perform`, for any tag, with the operand bytes read
at PC (the operations of 41_load_store.md R81, R82), and `runLoad`, `runStore`, `runSimple`, whole
instructions whose operand has been decoded. Both are written over the same small operations.
-/

namespace Sys2Proof.Machine

/-- Load-Accumulator once its effective address is known (R81). -/
def loadFrom (k : Params) (ea : Addr) (s : State) : Except FatalError State :=
  match readByte k s.mem ea with
  | .error e => .error e
  | .ok v => .ok (setAccumulator v s)

/-- Store-Accumulator once its effective address is known (R82). -/
def storeTo (k : Params) (ea : Addr) (s : State) : Except FatalError State :=
  match writeByte k s.mem ea s.a with
  | .error e => .error e
  | .ok m => .ok (setMemory m s)

/-- Transfer-Accumulator-to-X (R101). -/
def transferToX (s : State) : State := setIndexX s.a s

/-- Transfer-Accumulator-to-Y (R102). -/
def transferToY (s : State) : State := setIndexY s.a s

/-- Increment-X: modulo 256 (R103). -/
def incrementX (s : State) : State := setIndexX (s.x + 1) s

/-- Increment-Y: modulo 256 (R104). -/
def incrementY (s : State) : State := setIndexY (s.y + 1) s

/-- The operation `f` at the address the resolver answered, or the resolver's error: "the address is
always fully resolved before the data access" (20_memory.md R52). -/
def atAddress (r : Except FatalError Addr) (f : Addr → Except FatalError State) :
    Except FatalError State :=
  match r with
  | .error e => .error e
  | .ok ea => f ea

/-- `LoadAccumulator(mode)` (R81). -/
def loadAccumulator (k : Params) (mode : AddrMode) (s : State) : Except FatalError State :=
  atAddress (effectiveAddress k mode s) (fun ea => loadFrom k ea s)

/-- `StoreAccumulator(mode)` (R82). -/
def storeAccumulator (k : Params) (mode : AddrMode) (s : State) : Except FatalError State :=
  atAddress (effectiveAddress k mode s) (fun ea => storeTo k ea s)

/-- The operation of Executing (R113). Each operation but Halt goes on to Advancing (R110). -/
def perform (k : Params) (o : Operation) (mode : AddrMode) (s : State) : Except FatalError State :=
  match o with
  | .loadAccumulator => (loadAccumulator k mode s).map executed
  | .storeAccumulator => (storeAccumulator k mode s).map executed
  | .transferAccumulatorToX => .ok (executed (transferToX s))
  | .transferAccumulatorToY => .ok (executed (transferToY s))
  | .incrementX => .ok (executed (incrementX s))
  | .incrementY => .ok (executed (incrementY s))
  | .halt => .ok (halted s)

/-- The state in which an instruction's operation runs, from the boundary before it. -/
def enterInstr (i : Instr) (s : State) : State := enter i.opcode ⟨i.mode, i.len⟩ s

/-- The end of an instruction whose operation answered `r` in state `s`: Advancing, or the error
taken in the state it was raised in (R114, R128). -/
def conclude (s : State) (r : Except FatalError State) : State :=
  match r with
  | .error e => raise e s
  | .ok t => advance (executed t)

/-- A whole Load-Accumulator instruction from its effective address. -/
def runLoad (i : Instr) (ea : State → Except FatalError Addr) (s : State) :
    Host.Outcome State Fault Refusal :=
  .next (conclude (enterInstr i s) (atAddress (ea (enterInstr i s))
    (fun addr => loadFrom hardware addr (enterInstr i s))))

/-- A whole Store-Accumulator instruction from its effective address. -/
def runStore (i : Instr) (ea : State → Except FatalError Addr) (s : State) :
    Host.Outcome State Fault Refusal :=
  .next (conclude (enterInstr i s) (atAddress (ea (enterInstr i s))
    (fun addr => storeTo hardware addr (enterInstr i s))))

/-- A whole instruction without memory operand, other than Halt. -/
def runSimple (i : Instr) (f : State → State) (s : State) : Host.Outcome State Fault Refusal :=
  .next (advance (executed (f (enterInstr i s))))

end Sys2Proof.Machine
end

