-- ==== Sys2Proof/Machine/Halt.lean ====
section
/-!
DEFINITION. The meaning of opcode 0x00, Halt (43_halt_and_dispatch.md R109).
-/

namespace Sys2Proof.Machine

/-- `BRK` (Halt): Executing goes straight to Halted, without Advancing; PC stays one past the byte. -/
def execBrk (s : State) : Host.Outcome State Fault Refusal := .next (halted (enterInstr .brk s))

end Sys2Proof.Machine
end

