-- ==== Sys2Proof/Machine/LoadStore.lean ====
section
/-!
DEFINITION. The meanings of the eight Load-Accumulator and seven Store-Accumulator opcodes
(41_load_store.md), one definition each. `s` is the state at the instruction boundary, PC on the
opcode byte.
-/

namespace Sys2Proof.Machine

/-- `LDA #d8` (R83): the data byte is the operand byte itself. -/
def execLdaImm (d8 : Byte) (s : State) : Host.Outcome State Fault Refusal :=
  runSimple (.ldaImm d8) (setAccumulator d8) s

/-- `LDA d8` (R84). -/
def execLdaZp (d8 : Byte) (s : State) : Host.Outcome State Fault Refusal :=
  runLoad (.ldaZp d8) (fun _ => .ok (eaZp d8)) s

/-- `LDA d8,X` (R85). -/
def execLdaZpx (d8 : Byte) (s : State) : Host.Outcome State Fault Refusal :=
  runLoad (.ldaZpx d8) (fun t => .ok (eaZpIndexed d8 t.x)) s

/-- `LDA a16` (R86). -/
def execLdaAbs (a16 : Addr) (s : State) : Host.Outcome State Fault Refusal :=
  runLoad (.ldaAbs a16) (fun _ => .ok a16) s

/-- `LDA a16,X` (R87). -/
def execLdaAbx (a16 : Addr) (s : State) : Host.Outcome State Fault Refusal :=
  runLoad (.ldaAbx a16) (fun t => .ok (eaAbsIndexed a16 t.x)) s

/-- `LDA a16,Y` (R88). -/
def execLdaAby (a16 : Addr) (s : State) : Host.Outcome State Fault Refusal :=
  runLoad (.ldaAby a16) (fun t => .ok (eaAbsIndexed a16 t.y)) s

/-- `LDA (d8,X)` (R89). -/
def execLdaIzx (d8 : Byte) (s : State) : Host.Outcome State Fault Refusal :=
  runLoad (.ldaIzx d8) (eaIzx hardware d8) s

/-- `LDA (d8),Y` (R90). -/
def execLdaIzy (d8 : Byte) (s : State) : Host.Outcome State Fault Refusal :=
  runLoad (.ldaIzy d8) (eaIzy hardware d8) s

/-- `STA d8` (R91). -/
def execStaZp (d8 : Byte) (s : State) : Host.Outcome State Fault Refusal :=
  runStore (.staZp d8) (fun _ => .ok (eaZp d8)) s

/-- `STA d8,X` (R92). -/
def execStaZpx (d8 : Byte) (s : State) : Host.Outcome State Fault Refusal :=
  runStore (.staZpx d8) (fun t => .ok (eaZpIndexed d8 t.x)) s

/-- `STA a16` (R93). -/
def execStaAbs (a16 : Addr) (s : State) : Host.Outcome State Fault Refusal :=
  runStore (.staAbs a16) (fun _ => .ok a16) s

/-- `STA a16,X` (R94). -/
def execStaAbx (a16 : Addr) (s : State) : Host.Outcome State Fault Refusal :=
  runStore (.staAbx a16) (fun t => .ok (eaAbsIndexed a16 t.x)) s

/-- `STA a16,Y` (R95). -/
def execStaAby (a16 : Addr) (s : State) : Host.Outcome State Fault Refusal :=
  runStore (.staAby a16) (fun t => .ok (eaAbsIndexed a16 t.y)) s

/-- `STA (d8,X)` (R96). -/
def execStaIzx (d8 : Byte) (s : State) : Host.Outcome State Fault Refusal :=
  runStore (.staIzx d8) (eaIzx hardware d8) s

/-- `STA (d8),Y` (R97). -/
def execStaIzy (d8 : Byte) (s : State) : Host.Outcome State Fault Refusal :=
  runStore (.staIzy d8) (eaIzy hardware d8) s

end Sys2Proof.Machine
end

