-- ==== Sys2Proof/Machine/TransferIncrement.lean ====
section
/-!
DEFINITION. The meanings of the register-only opcodes TAX, TAY, INX, INY (42_transfer_increment.md).
-/

namespace Sys2Proof.Machine

/-- `TAX` (R101). -/
def execTax (s : State) : Host.Outcome State Fault Refusal := runSimple .tax transferToX s

/-- `TAY` (R102). -/
def execTay (s : State) : Host.Outcome State Fault Refusal := runSimple .tay transferToY s

/-- `INX` (R103). -/
def execInx (s : State) : Host.Outcome State Fault Refusal := runSimple .inx incrementX s

/-- `INY` (R104). -/
def execIny (s : State) : Host.Outcome State Fault Refusal := runSimple .iny incrementY s

end Sys2Proof.Machine
end

