-- ==== Sys2Proof/Machine/Dispatch.lean ====
section
/-!
DEFINITION. One arm per constructor of Instr, each one call of the instruction's meaning.
-/

namespace Sys2Proof.Machine

/-- The effect of a whole instruction, from the boundary before it (PC on its opcode byte) to the
boundary after it. -/
def exec (i : Instr) (s : State) : Host.Outcome State Fault Refusal :=
  match i with
  | .brk => Sys2Proof.Machine.execBrk s
  | .staIzx d8 => Sys2Proof.Machine.execStaIzx d8 s
  | .staZp d8 => Sys2Proof.Machine.execStaZp d8 s
  | .staAbs a16 => Sys2Proof.Machine.execStaAbs a16 s
  | .staIzy d8 => Sys2Proof.Machine.execStaIzy d8 s
  | .staZpx d8 => Sys2Proof.Machine.execStaZpx d8 s
  | .staAby a16 => Sys2Proof.Machine.execStaAby a16 s
  | .staAbx a16 => Sys2Proof.Machine.execStaAbx a16 s
  | .ldaIzx d8 => Sys2Proof.Machine.execLdaIzx d8 s
  | .ldaZp d8 => Sys2Proof.Machine.execLdaZp d8 s
  | .tay => Sys2Proof.Machine.execTay s
  | .ldaImm d8 => Sys2Proof.Machine.execLdaImm d8 s
  | .tax => Sys2Proof.Machine.execTax s
  | .ldaAbs a16 => Sys2Proof.Machine.execLdaAbs a16 s
  | .ldaIzy d8 => Sys2Proof.Machine.execLdaIzy d8 s
  | .ldaZpx d8 => Sys2Proof.Machine.execLdaZpx d8 s
  | .ldaAby a16 => Sys2Proof.Machine.execLdaAby a16 s
  | .ldaAbx a16 => Sys2Proof.Machine.execLdaAbx a16 s
  | .iny => Sys2Proof.Machine.execIny s
  | .inx => Sys2Proof.Machine.execInx s

end Sys2Proof.Machine
end

