-- ==== Sys2Proof/Machine/Sequencer.lean ====
section
/-!
DEFINITION. The sequencer phase by phase, for any parameters and any opcode table
(43_halt_and_dispatch.md R110 to R117): the meaning of every state of R30, and the place where
parameter values other than this hardware's are given a meaning (00_scope.md R8, 41_load_store.md
R99). `Machine.step` runs an instruction in one call of `exec`; that the two agree is an obligation.
-/

namespace Sys2Proof.Machine

/-- Fetching (R111). A read that faults leaves PC where it is. -/
def fetchPhase (k : Params) (s : State) : State :=
  match readByte k s.mem s.pc with
  | .error e => raise e { s with opaddr := s.pc }
  | .ok b => fetched b s

/-- Decoding (R112). -/
def decodePhase (k : Params) (s : State) : State :=
  match k.optable s.op with
  | none => raise .unsupportedOpcode s
  | some d => decoded d s

/-- Executing (R113). -/
def executePhase (k : Params) (s : State) : State :=
  match k.opsel s.op with
  | none => raise .unsupportedOpcode (dispatched s)
  | some o =>
    match perform k o s.mode (dispatched s) with
    | .error e => raise e (dispatched s)
    | .ok t => t

/-- One transition of the table of R110. Halted and Faulted execute nothing (R115, R134). -/
def phase (k : Params) (s : State) : State :=
  match s.runState with
  | .fetching => fetchPhase k s
  | .decoding => decodePhase k s
  | .executing => executePhase k s
  | .advancing => advance s
  | .halted => s
  | .faulted => s

/-- At most `n` phases, up to the next instruction boundary. -/
def toBoundary (k : Params) : Nat → State → State
  | 0, s => s
  | n + 1, s =>
    match s.runState with
    | .decoding | .executing | .advancing => toBoundary k n (phase k s)
    | .fetching | .halted | .faulted => s

/-- `Step` (R116): the phases from where the sequencer is up to the next boundary, four at most. -/
def sequencerStep (k : Params) (s : State) : State := toBoundary k 3 (phase k s)

/-- `Run` (R117), cut off after `n` instructions: nothing says that a run ends (R123). -/
def sequencerRun (k : Params) : Nat → State → State
  | 0, s => s
  | n + 1, s => if s.runState = .fetching then sequencerRun k n (sequencerStep k s) else s

end Sys2Proof.Machine
end

