-- ==== Sys2Proof/Machine/Fetch.lean ====
section
/-!
DEFINITION. Fetching an instruction's bytes at PC and laying a word out there: the first half of
`Machine.step`, in the order of the accesses of 20_memory.md R52.
-/

namespace Sys2Proof.Machine

/-- The instruction at PC, its operand bytes included, or the faulted state in which fetching or
decoding it ends (60_exceptions.md R131, R133). Nothing is changed when it is found: `exec` does the
fetch's own bookkeeping. -/
def fetchInstr (s : State) : Except State Instr :=
  match readByte hardware s.mem s.pc with
  | .error e => .error (raise e { s with opaddr := s.pc })
  | .ok op =>
    match hardware.optable op with
    | none => .error (raise .unsupportedOpcode (fetched op s))
    | some d =>
      match hardware.opsel op with
      | none => .error (raise .unsupportedOpcode (enter op d s))
      | some _ =>
        match readBytes hardware s.mem (s.pc + 1) d.len.operands with
        | .error e => .error (raise e (enter op d s))
        | .ok bs =>
          match decode (op :: bs) with
          | .ok (i, _) => .ok i
          | .error _ => .error (raise .unsupportedOpcode (enter op d s))

/-- Store bytes in the cells from an address up; an address that is no cell stores nothing. -/
def placeBytes (m : Memory) (addr : Addr) : List Byte → Memory
  | [] => m
  | b :: bs =>
    placeBytes (match writeByte hardware m addr b with
      | .ok m' => m'
      | .error _ => m) (addr + 1) bs

end Sys2Proof.Machine
end

