-- ==== Sys2Proof/Machine/Step.lean ====
section
/-!
DEFINITION. One step of the machine: one whole instruction (43_halt_and_dispatch.md R116, R124).
-/

namespace Sys2Proof.Machine

/-- From Fetching, fetch the instruction at PC and execute it. Halted and Faulted execute nothing:
the state stays as it is (R115; 60_exceptions.md R134; DEDUCED, safe: log entry 2). Inside an
instruction, where no boundary state is, the sequencer goes on from its phase to the next boundary
(R110; log entry 10). -/
def step (s : State) : Host.Outcome State Fault Refusal :=
  match s.runState with
  | .fetching =>
    match fetchInstr s with
    | .error t => .next t
    | .ok i => exec i s
  | .decoding | .executing | .advancing => .next (sequencerStep hardware s)
  | .halted | .faulted => .next s

/-- `s` with the bytes of an instruction at PC, and the sequencer at Fetching so that the next step
fetches them. -/
def State.withFetchWord (s : State) (nbits w : Nat) : State :=
  { s with mem := placeBytes s.mem s.pc (tableBytes nbits w), runState := .fetching }

end Sys2Proof.Machine
end

