-- ==== Sys2Proof/Machine/HostInterface.lean ====
section
/-!
DEFINITION. What the host does to the core at an instruction boundary (70_reset_and_hazards.md R148
to R155): loading a program image, reset and run, writing a cell, inspecting. Reset is `applyReset`.
None of this is an input of `step` (log entry 14).
-/

namespace Sys2Proof.Machine

/-- PROGRAM_BASE (00_scope.md R7) -/
def programBase : Addr := 0x8000

/-- The cells from PROGRAM_BASE to the top: the longest image (R149). -/
def maxImage (k : Params) : Nat := k.memSize.cells - programBase.toNat

/-- The image copied into the cells from `a` up, in order (R148). -/
def copyImage (m : Memory) (a : Nat) : List Byte → Memory
  | [] => m
  | b :: bs => copyImage (writeCell m a b) (a + 1) bs

/-- Memory after `Load(image)`: the image, then the vector (R148). Every cell written exists when
the image is not oversized. -/
def loadedMemory (k : Params) (m : Memory) (image : List Byte) : Memory :=
  (writeWord k (copyImage m programBase.toNat image) resetVector programBase).1

/-- `Load(image)` (R148): no register and no `run_state` changes. An oversized image is refused
(R149). -/
def load (k : Params) (image : List Byte) (s : State) : Host.Outcome State Fault Refusal :=
  if image.length ≤ maxImage k then .next (setMemory (loadedMemory k s.mem image) s)
  else .refused (.oversizedImage image.length)

/-- `LoadAndRun(image)` (R150), the run cut off after `n` instructions. -/
def loadAndRun (k : Params) (image : List Byte) (n : Nat) (s : State) :
    Host.Outcome State Fault Refusal :=
  match load k image s with
  | .next t => .next (sequencerRun k n (applyReset k t))
  | .fault r => .fault r
  | .refused r => .refused r

/-- The host writes one cell while the core is not running (R153). -/
def hostWrite (k : Params) (addr : Addr) (v : Byte) (s : State) :
    Host.Outcome State Fault Refusal :=
  match s.runState with
  | .halted | .faulted =>
    match writeByte k s.mem addr v with
    | .ok m => .next (setMemory m s)
    | .error _ => .refused (.hostWriteOutsideMemory addr)
  | .fetching | .decoding | .executing | .advancing => .refused .hostWriteDuringRun

/-- What the host can read of the core beside memory (R152). -/
structure Inspection where
  a : Byte
  x : Byte
  y : Byte
  p : Byte
  pc : Addr
  runState : RunState
  fault : Option Fault
deriving DecidableEq, Repr

/-- The inspection interface, registers and outcome (R152). -/
def inspect (s : State) : Inspection where
  a := s.a
  x := s.x
  y := s.y
  p := s.p
  pc := s.pc
  runState := s.runState
  fault := s.fault

/-- The inspection interface, one memory cell; none where there is no cell (R152). -/
def inspectMem (k : Params) (addr : Addr) (s : State) : Option Byte :=
  match readByte k s.mem addr with
  | .ok b => some b
  | .error _ => none

end Sys2Proof.Machine
end

