-- ==== Sys2Proof/WellFormed.lean ====
section
/-!
DEFINITION. The well-formedness conditions of 30_encoding.md R60: of one pairing, of an instruction
(its opcode has its own row in the map, and the row is well-formed) and of a replacement table, as a
proposition and as the check that refuses a table that is not well-formed (92_eei_decisions.md D17).
-/

namespace Sys2Proof

/-- Condition (1) of R60: the length is the length of the tag's format. -/
def lenFitsMode (m : AddrMode) (l : InstrLen) : Bool := l == m.formatLen

/-- Conditions (2) and (3) of R60: a load or store has a tag other than NONE, every other operation
has NONE. A store has no immediate form either: 92_eei_decisions.md D17 and U12 of
93_implementation_defined.md, both for R60, list "a store with IMM" among the tables that are not
well-formed (DEDUCED, safe: log entry 22). -/
def modeFitsOperation (o : Operation) (m : AddrMode) : Bool :=
  match o with
  | .loadAccumulator => m != .none
  | .storeAccumulator => m != .none && m != .imm
  | .transferAccumulatorToX | .transferAccumulatorToY | .incrementX | .incrementY | .halt =>
    m == .none

/-- R60 for one opcode byte's pairing of operation, tag and length. -/
def pairWf (o : Operation) (m : AddrMode) (l : InstrLen) : Bool :=
  lenFitsMode m l && modeFitsOperation o m

/-- R60 for a pair (OPTABLE, OPSEL): every byte in the domain of both is well paired. -/
def Params.WellFormed (k : Params) : Prop :=
  ∀ op d o, k.optable op = some d → k.opsel op = some o → pairWf o d.mode d.len = true

/-- R60 for one opcode byte of a pair (OPTABLE, OPSEL). -/
def Params.byteWf (k : Params) (op : Byte) : Bool :=
  match k.optable op, k.opsel op with
  | some d, some o => pairWf o d.mode d.len
  | _, _ => true

/-- The check of R60 a model should make of a replacement table before it uses it (R60, D17): every
opcode byte is looked at. -/
def Params.check (k : Params) : Bool := (List.range 256).all (fun n => k.byteWf (BitVec.ofNat 8 n))

/-- An instruction is well-formed when its opcode byte's row in the map is the row of its own
operation and tag, and that row meets R60. Its operand has its width by type. -/
def Instr.wf (i : Instr) : Bool :=
  match rowOf i.opcode with
  | some r =>
    r.operation == i.operation && r.mode == i.mode && r.len == i.len &&
      pairWf r.operation r.mode r.len
  | none => false

end Sys2Proof
end

