-- ==== Sys2Proof/Safety.lean ====
section
/-!
DEFINITION. The terms claims about the machine are stated in: where a run may end, what a completed
instruction and a fatal error leave, the invariants, and the legal and illegal opcode bytes.
-/

namespace Sys2Proof.Machine

/-! ### Runs -/

/-- The state is an instruction boundary (10_state.md R30). -/
def AtBoundary (s : State) : Prop :=
  s.runState = .fetching ∨ s.runState = .halted ∨ s.runState = .faulted

/-- A run is over (43_halt_and_dispatch.md R122). -/
def RunOver (s : State) : Prop := s.runState = .halted ∨ s.runState = .faulted

/-! ### Results -/

/-- The two flags reflect the 8-bit result `r`, and every other bit of the status byte is as it was
in `p` (42_transfer_increment.md R100; 10_state.md R24 to R26). -/
def FlagsFrom (r p p' : Byte) : Prop :=
  zeroFlag p' = decide (r = 0) ∧ negativeFlag p' = r.getLsbD 7 ∧
    ∀ i, i ≠ 1 → i ≠ 7 → p'.getLsbD i = p.getLsbD i

/-- What a completed instruction other than Halt leaves in the sequencer's part of the state: PC past
the instruction, back at Fetching, the latches those of the instruction, no error recorded anew
(43_halt_and_dispatch.md R111 to R114). -/
def Sequenced (i : Instr) (s t : State) : Prop :=
  t.pc = s.pc + BitVec.ofNat 16 i.len.toNat ∧ t.runState = .fetching ∧ t.op = i.opcode ∧
    t.opaddr = s.pc ∧ t.mode = i.mode ∧ t.len = i.len ∧ t.preDispatchPC = s.pc + 1 ∧
    t.fault = s.fault ∧ t.freeCount = s.freeCount

/-- `t` is `s` after the load instruction `i` has read the byte `v` (41_load_store.md R81), with the
whole frame. -/
def Loaded (i : Instr) (v : Byte) (s t : State) : Prop :=
  t.a = v ∧ FlagsFrom v s.p t.p ∧ t.x = s.x ∧ t.y = s.y ∧ t.mem = s.mem ∧ Sequenced i s t

/-- `t` is `s` after the store instruction `i` has written A at `ea` (41_load_store.md R82), with the
whole frame: no register, no flag, no byte but the one at `ea`. -/
def Stored (i : Instr) (ea : Addr) (s t : State) : Prop :=
  readByte hardware t.mem ea = .ok s.a ∧
    (∀ b : Addr, b ≠ ea → readByte hardware t.mem b = readByte hardware s.mem b) ∧
    t.a = s.a ∧ t.x = s.x ∧ t.y = s.y ∧ t.p = s.p ∧ Sequenced i s t

/-- `t` is `s` after the instruction `i` has raised MemoryRangeFault at 0xFFFF in an access after
its opcode fetch (60_exceptions.md R127, R128, R131): nothing but PC, the latches, the record and the
count of errors differs. -/
def RangeFaulted (i : Instr) (s t : State) : Prop :=
  t.runState = .faulted ∧ t.fault = some (.memoryRangeFault 0xFFFF s.pc i.opcode) ∧
    t.pc = s.pc + 1 ∧ t.a = s.a ∧ t.x = s.x ∧ t.y = s.y ∧ t.p = s.p ∧ t.mem = s.mem ∧
    t.op = i.opcode ∧ t.opaddr = s.pc ∧ t.mode = i.mode ∧ t.len = i.len ∧
    t.preDispatchPC = s.pc + 1 ∧ t.freeCount = s.freeCount + 1

/-! ### Effective addresses, in whole numbers (40_addressing_resolver.md) -/

/-- The byte at an address below 0xFFFF. -/
def cellAt (s : State) (n : Nat) : Byte := readCell s.mem n

/-- The little-endian word at `n` and `n + 1`, as a number. -/
def pointerAt (s : State) (n : Nat) : Nat := (cellAt s n).toNat + 256 * (cellAt s (n + 1)).toNat

/-- `(d8 + index) mod 256` (R70, R71). -/
def zpSum (d8 index : Byte) : Nat := (d8.toNat + index.toNat) % 256

/-- `(a16 + index) mod 65536` (R73, R74). -/
def absSum (a16 : Nat) (index : Byte) : Nat := (a16 + index.toNat) % 65536

/-- The effective address of an instruction's data access at a state, as a number: the rule of its
tag (R68 to R76) under the default parameters. An instruction without a data access has none. -/
def dataAddress (i : Instr) (s : State) : Option Nat :=
  match i with
  | .brk | .tax | .tay | .inx | .iny => none
  | .ldaImm _ => some ((s.pc.toNat + 1) % 65536)
  | .ldaZp d8 | .staZp d8 => some d8.toNat
  | .ldaZpx d8 | .staZpx d8 => some (zpSum d8 s.x)
  | .ldaAbs a16 | .staAbs a16 => some a16.toNat
  | .ldaAbx a16 | .staAbx a16 => some (absSum a16.toNat s.x)
  | .ldaAby a16 | .staAby a16 => some (absSum a16.toNat s.y)
  | .ldaIzx d8 | .staIzx d8 => some (pointerAt s (zpSum d8 s.x))
  | .ldaIzy d8 | .staIzy d8 => some (absSum (pointerAt s d8.toNat) s.y)

/-! ### Opcode bytes -/

/-- The 20 legal opcode bytes of the default map (30_encoding.md R58). -/
def legalOpcodes : List Byte :=
  [0x00, 0x81, 0x85, 0x8D, 0x91, 0x95, 0x99, 0x9D, 0xA1, 0xA5] ++
  [0xA8, 0xA9, 0xAA, 0xAD, 0xB1, 0xB5, 0xB9, 0xBD, 0xC8, 0xE8]

/-! ### Invariants -/

/-- Memory is in its canonical form and lists only cells that exist (20_memory.md R35). -/
def MemoryInv (s : State) : Prop := s.mem.wf = true ∧ s.mem.within 65535 = true

/-- The sequencer is at a boundary, and an error is recorded exactly when the run has faulted
(10_state.md R30, R31). -/
def SequencerInv (s : State) : Prop :=
  AtBoundary s ∧ (s.fault.isSome = true ↔ s.runState = .faulted)

/-- The status byte is one of the three a run from reset can show (10_state.md R26). -/
def StatusInv (s : State) : Prop := s.p = 0x00 ∨ s.p = 0x02 ∨ s.p = 0x80

end Sys2Proof.Machine
end

