-- ==== Sys2Proof/Certificates/Slice0/Obligations.lean ====
section
/-!
DEFINITION. What is claimed of the model, for the provers. Each docstring names the rules of spec/ it
formalises. `hardware` is the machine of the default parameters; statements over every `Params` hold
for the other values of MEM_SIZE and ZP_PTR_WRAP and for every opcode table as well.
-/

open Sys2Proof Sys2Proof.Machine

/-! ### Memory -/

/-- 20_memory.md R37: a byte write changes its cell and no other, and where there is no cell it
raises MemoryRangeFault and writes nothing. -/
def Obligations.ByteWriteChangesOneCell : Prop :=
  ∀ (k : Params) (m : Memory) (addr : Addr) (v : Byte),
    (addr.toNat < k.memSize.cells → ∃ m', writeByte k m addr v = .ok m' ∧
      readByte k m' addr = .ok v ∧ ∀ b : Addr, b ≠ addr → readByte k m' b = readByte k m b) ∧
    (k.memSize.cells ≤ addr.toNat → writeByte k m addr v = .error (.memoryRangeFault addr))

/-- 20_memory.md R38: a word read is two byte reads, the low byte first, the second address modulo
65536; the first failing read's error is the word read's. -/
def Obligations.WordReadIsTwoByteReads : Prop :=
  ∀ (k : Params) (m : Memory) (addr : Addr),
    (∀ lo hi, readByte k m addr = .ok lo → readByte k m (addr + 1) = .ok hi →
      ∃ w, readWord k m addr = .ok w ∧ w.toNat = hi.toNat * 256 + lo.toNat) ∧
    (∀ e, readByte k m addr = .error e → readWord k m addr = .error e) ∧
    (∀ lo e, readByte k m addr = .ok lo → readByte k m (addr + 1) = .error e →
      readWord k m addr = .error e) ∧
    (k.memSize = .cells65535 → readWord k m 0xFFFE = .error (.memoryRangeFault 0xFFFF) ∧
      readWord k m 0xFFFF = .error (.memoryRangeFault 0xFFFF))

/-- 20_memory.md R39, R40: a word write puts the low byte at the address and the high byte above it
and touches no other cell; at 0xFFFE the low byte is written and then the missing cell faults; at
0xFFFF nothing is written. -/
def Obligations.WordWriteIsLittleEndian : Prop :=
  ∀ (m : Memory) (addr v : Addr),
    (addr.toNat < 0xFFFE → ∃ m', writeWord hardware m addr v = (m', none) ∧
      readByte hardware m' addr = .ok (loByte v) ∧
      readByte hardware m' (addr + 1) = .ok (hiByte v) ∧
      ∀ b : Addr, b ≠ addr → b ≠ addr + 1 → readByte hardware m' b = readByte hardware m b) ∧
    (addr = 0xFFFE → ∃ m', writeWord hardware m addr v = (m', some (.memoryRangeFault 0xFFFF)) ∧
      readByte hardware m' addr = .ok (loByte v) ∧
      ∀ b : Addr, b ≠ addr → readByte hardware m' b = readByte hardware m b) ∧
    (addr = 0xFFFF → writeWord hardware m addr v = (m, some (.memoryRangeFault 0xFFFF)))

/-- 20_memory.md R41: the word round trip, at every address both of whose bytes are cells. -/
def Obligations.WordRoundTrip : Prop :=
  ∀ (m : Memory) (addr x : Addr), addr.toNat ≤ 0xFFFD →
    ∃ m', writeWord hardware m addr x = (m', none) ∧ readWord hardware m' addr = .ok x

/-- Canonical memories that read alike are equal (the model's representation of R29). -/
def Obligations.EqualReadsEqualMemories : Prop :=
  ∀ m m' : Memory, m.wf = true → m'.wf = true → (∀ n, readCell m n = readCell m' n) → m = m'

/-- Every step keeps memory canonical and inside the 65535 cells (20_memory.md R35). -/
def Obligations.StepKeepsMemoryInv : Prop :=
  ∀ s t : State, MemoryInv s → step s = .next t → MemoryInv t

/-- Loading and host writes keep memory canonical and inside the cells (70_reset_and_hazards.md R148,
R153). -/
def Obligations.HostKeepsMemoryInv : Prop :=
  ∀ s t : State, MemoryInv s →
    (∀ image, load hardware image s = .next t → MemoryInv t) ∧
    (∀ addr v, hostWrite hardware addr v s = .next t → MemoryInv t)

/-! ### Flags -/

/-- 10_state.md R24, R25, 42_transfer_increment.md R100: each flag update sets or clears its own bit
from the result and keeps every other bit; SetZN is the two in either order, and never leaves both
flags set. -/
def Obligations.FlagUpdatesTouchTheirOwnBits : Prop :=
  ∀ p r : Byte,
    (zeroFlag (updateZeroFlag p r) = decide (r = 0) ∧
      ∀ i, i ≠ 1 → (updateZeroFlag p r).getLsbD i = p.getLsbD i) ∧
    (negativeFlag (updateNegativeFlag p r) = r.getLsbD 7 ∧
      ∀ i, i ≠ 7 → (updateNegativeFlag p r).getLsbD i = p.getLsbD i) ∧
    FlagsFrom r p (setZN p r) ∧
    setZN p r = updateZeroFlag (updateNegativeFlag p r) r ∧
    ¬ (zeroFlag (setZN p r) = true ∧ negativeFlag (setZN p r) = true)

/-- 10_state.md R26: no step changes a reserved bit of the status register. -/
def Obligations.ReservedStatusBitsKept : Prop :=
  ∀ (s t : State) (i : Nat), step s = .next t → i ≠ 1 → i ≠ 7 → t.p.getLsbD i = s.p.getLsbD i

/-- 10_state.md R26: from a status byte a run from reset can show, a step leads to one. -/
def Obligations.StepKeepsStatusInv : Prop :=
  ∀ s t : State, StatusInv s → step s = .next t → StatusInv t

/-- 10_state.md R27: nothing reads P. Whatever P holds, a step does the same to everything else. -/
def Obligations.NothingReadsStatus : Prop :=
  ∀ (s t : State) (q : Byte), step s = .next t →
    ∃ r : Byte, step { s with p := q } = .next { t with p := r }

/-! ### Encoding -/

/-- 30_encoding.md R54, R56, R58: every well-formed instruction decodes from its own encoding, with
every operand, and leaves the bytes behind it. -/
def Obligations.DecodeOfEncode : Prop :=
  ∀ (i : Instr) (rest : List Byte), i.wf = true → decode (encode i ++ rest) = .ok (i, rest)

/-- The other direction: what decodes to an instruction is its encoding, so each encoding has one
meaning (30_encoding.md R57). -/
def Obligations.EncodeOfDecode : Prop :=
  ∀ (bs rest : List Byte) (i : Instr), decode bs = .ok (i, rest) →
    bs = encode i ++ rest ∧ i.wf = true

/-- 30_encoding.md R61, R58: an opcode byte decodes as unsupported exactly when it is not one of the
20, whatever follows it. -/
def Obligations.IllegalOpcodesRefused : Prop :=
  ∀ (op : Byte) (rest : List Byte),
    decode (op :: rest) = .error (.unsupportedOpcode op) ↔ op ∉ legalOpcodes

/-- Words written out from 30_encoding.md R54, R58, R64: bytes of F1, F2 and F3. -/
def Obligations.SpecWordsDecode : Prop :=
  decode [0xA9, 0x05] = .ok (.ldaImm 0x05, []) ∧ decode [0xA5, 0x10] = .ok (.ldaZp 0x10, []) ∧
  decode [0xA1, 0x00] = .ok (.ldaIzx 0x00, []) ∧ decode [0x95, 0x20] = .ok (.staZpx 0x20, []) ∧
  decode [0x8D, 0x00, 0x02] = .ok (.staAbs 0x0200, []) ∧
  decode [0xBD, 0x00, 0x02] = .ok (.ldaAbx 0x0200, []) ∧
  decode [0x91, 0x40] = .ok (.staIzy 0x40, []) ∧ decode [0xE8] = .ok (.inx, []) ∧
  decode [0x00] = .ok (.brk, [])

/-! ### The resolver -/

/-- 40_addressing_resolver.md R78: the zero-page pointer never faults; its high byte is in the cell
above its low byte, but with ZP_PTR_WRAP the pointer at 0xFF takes it from cell 0x0000. -/
def Obligations.ZeroPagePointer : Prop :=
  ∀ (k : Params) (m : Memory) (p : Byte), ∃ w, zpWord k m p = .ok w ∧
    w.toNat = (readCell m p.toNat).toNat +
      256 * (readCell m (if p = 0xFF ∧ k.zpPtrWrap = true then 0 else p.toNat + 1)).toNat

/-- 40_addressing_resolver.md R69, R70, R71: the zero-page modes, the index sum modulo 256, and the
fault of an operand byte at 0xFFFF. -/
def Obligations.ZeroPageModeAddresses : Prop :=
  ∀ (s : State) (mode : AddrMode) (n : Nat),
    (mode, n) ∈ [(AddrMode.zp, (cellAt s s.pc.toNat).toNat),
      (AddrMode.zpx, ((cellAt s s.pc.toNat).toNat + s.x.toNat) % 256),
      (AddrMode.zpy, ((cellAt s s.pc.toNat).toNat + s.y.toNat) % 256)] →
    (s.pc ≠ 0xFFFF → ∃ ea, effectiveAddress hardware mode s = .ok ea ∧ ea.toNat = n) ∧
    (s.pc = 0xFFFF → effectiveAddress hardware mode s = .error (.memoryRangeFault 0xFFFF))

/-- 40_addressing_resolver.md R72, R73, R74: the absolute modes, the index sum modulo 65536, and the
fault of an operand byte at 0xFFFF. An address of 0xFFFF is returned without error. -/
def Obligations.AbsoluteModeAddresses : Prop :=
  ∀ (s : State) (mode : AddrMode) (n : Nat),
    (mode, n) ∈ [(AddrMode.abs, pointerAt s s.pc.toNat),
      (AddrMode.abx, (pointerAt s s.pc.toNat + s.x.toNat) % 65536),
      (AddrMode.aby, (pointerAt s s.pc.toNat + s.y.toNat) % 65536)] →
    (s.pc.toNat < 0xFFFE → ∃ ea, effectiveAddress hardware mode s = .ok ea ∧ ea.toNat = n) ∧
    (0xFFFE ≤ s.pc.toNat →
      effectiveAddress hardware mode s = .error (.memoryRangeFault 0xFFFF))

/-- 40_addressing_resolver.md R75, R76 under the default ZP_PTR_WRAP: the indirect modes, the index
before the pointer modulo 256 or after it modulo 65536. -/
def Obligations.IndirectModeAddresses : Prop :=
  ∀ (s : State) (mode : AddrMode) (n : Nat),
    (mode, n) ∈ [
      (AddrMode.izx, pointerAt s (((cellAt s s.pc.toNat).toNat + s.x.toNat) % 256)),
      (AddrMode.izy, (pointerAt s (cellAt s s.pc.toNat).toNat + s.y.toNat) % 65536)] →
    (s.pc ≠ 0xFFFF → ∃ ea, effectiveAddress hardware mode s = .ok ea ∧ ea.toNat = n) ∧
    (s.pc = 0xFFFF → effectiveAddress hardware mode s = .error (.memoryRangeFault 0xFFFF))

/-! ### The operations for any mode and any parameters -/

/-- 41_load_store.md R81: Load-Accumulator writes A and the two flags from the byte read at the
effective address and nothing else; an error of the resolver or the read is its error, with nothing
written. -/
def Obligations.LoadAccumulatorAnyMode : Prop :=
  ∀ (k : Params) (mode : AddrMode) (s : State),
    (∀ ea v, effectiveAddress k mode s = .ok ea → readByte k s.mem ea = .ok v →
      ∃ p', FlagsFrom v s.p p' ∧ loadAccumulator k mode s = .ok { s with a := v, p := p' }) ∧
    (∀ e, effectiveAddress k mode s = .error e → loadAccumulator k mode s = .error e) ∧
    (∀ ea e, effectiveAddress k mode s = .ok ea → readByte k s.mem ea = .error e →
      loadAccumulator k mode s = .error e)

/-- 41_load_store.md R82: Store-Accumulator writes A to the one cell at the effective address, and
no register or flag; on an error nothing is written. -/
def Obligations.StoreAccumulatorAnyMode : Prop :=
  ∀ (k : Params) (mode : AddrMode) (s : State),
    (∀ ea, effectiveAddress k mode s = .ok ea → ea.toNat < k.memSize.cells →
      ∃ m', storeAccumulator k mode s = .ok { s with mem := m' } ∧
        readByte k m' ea = .ok s.a ∧
        ∀ b : Addr, b ≠ ea → readByte k m' b = readByte k s.mem b) ∧
    (∀ e, effectiveAddress k mode s = .error e → storeAccumulator k mode s = .error e) ∧
    (∀ ea, effectiveAddress k mode s = .ok ea → k.memSize.cells ≤ ea.toNat →
      storeAccumulator k mode s = .error (.memoryRangeFault ea))

/-! ### Every instruction: where it completes, what it leaves, where it faults -/

/-- `LDA #d8` (41_load_store.md R83) completes in every state. -/
def Obligations.LdaImmediateCompletes : Prop :=
  ∀ (d8 : Byte) (s : State),
    ∃ t, exec (.ldaImm d8) s = .next t ∧ Loaded (.ldaImm d8) d8 s t

/-- `LDA d8` and `LDA d8,X` (41_load_store.md R84, R85) complete in every state. -/
def Obligations.LdaZeroPageCompletes : Prop :=
  ∀ (d8 : Byte) (s : State),
    (∃ t, exec (.ldaZp d8) s = .next t ∧ Loaded (.ldaZp d8) (cellAt s d8.toNat) s t) ∧
    (∃ t, exec (.ldaZpx d8) s = .next t ∧
      Loaded (.ldaZpx d8) (cellAt s (zpSum d8 s.x)) s t)

/-- `LDA a16`, `LDA a16,X`, `LDA a16,Y` (41_load_store.md R86, R87, R88) complete at every effective
address but 0xFFFF, where the data read faults. -/
def Obligations.LdaAbsoluteCompletesOrFaults : Prop :=
  ∀ (a16 : Addr) (s : State) (i : Instr) (n : Nat),
    (i, n) ∈ [(Instr.ldaAbs a16, a16.toNat), (Instr.ldaAbx a16, absSum a16.toNat s.x),
      (Instr.ldaAby a16, absSum a16.toNat s.y)] →
    (n ≠ 0xFFFF → ∃ t, exec i s = .next t ∧ Loaded i (cellAt s n) s t) ∧
    (n = 0xFFFF → ∃ t, exec i s = .next t ∧ RangeFaulted i s t)

/-- `LDA (d8,X)`, `LDA (d8),Y` (41_load_store.md R89, R90) complete at every effective address but
0xFFFF, where the data read faults. The pointer at 0xFF is read under the default ZP_PTR_WRAP (log
entry 4). -/
def Obligations.LdaIndirectCompletesOrFaults : Prop :=
  ∀ (d8 : Byte) (s : State) (i : Instr) (n : Nat),
    (i, n) ∈ [(Instr.ldaIzx d8, pointerAt s (zpSum d8 s.x)),
      (Instr.ldaIzy d8, absSum (pointerAt s d8.toNat) s.y)] →
    (n ≠ 0xFFFF → ∃ t, exec i s = .next t ∧ Loaded i (cellAt s n) s t) ∧
    (n = 0xFFFF → ∃ t, exec i s = .next t ∧ RangeFaulted i s t)

/-- `STA d8` and `STA d8,X` (41_load_store.md R91, R92) complete in every state, and change no byte
but the one at their effective address. -/
def Obligations.StaZeroPageCompletes : Prop :=
  ∀ (d8 : Byte) (s : State),
    (∃ t, exec (.staZp d8) s = .next t ∧ Stored (.staZp d8) (BitVec.ofNat 16 d8.toNat) s t) ∧
    (∃ t, exec (.staZpx d8) s = .next t ∧
      Stored (.staZpx d8) (BitVec.ofNat 16 (zpSum d8 s.x)) s t)

/-- `STA a16`, `STA a16,X`, `STA a16,Y` (41_load_store.md R93, R94, R95) complete at every effective
address but 0xFFFF, where the write faults and stores nothing. -/
def Obligations.StaAbsoluteCompletesOrFaults : Prop :=
  ∀ (a16 : Addr) (s : State) (i : Instr) (n : Nat),
    (i, n) ∈ [(Instr.staAbs a16, a16.toNat), (Instr.staAbx a16, absSum a16.toNat s.x),
      (Instr.staAby a16, absSum a16.toNat s.y)] →
    (n ≠ 0xFFFF → ∃ t, exec i s = .next t ∧ Stored i (BitVec.ofNat 16 n) s t) ∧
    (n = 0xFFFF → ∃ t, exec i s = .next t ∧ RangeFaulted i s t)

/-- `STA (d8,X)`, `STA (d8),Y` (41_load_store.md R96, R97) complete at every effective address but
0xFFFF, where the write faults and stores nothing. The pointer is read before the store,
and at 0xFF under the default ZP_PTR_WRAP (the spec's decision D4, log entry 4). -/
def Obligations.StaIndirectCompletesOrFaults : Prop :=
  ∀ (d8 : Byte) (s : State) (i : Instr) (n : Nat),
    (i, n) ∈ [(Instr.staIzx d8, pointerAt s (zpSum d8 s.x)),
      (Instr.staIzy d8, absSum (pointerAt s d8.toNat) s.y)] →
    (n ≠ 0xFFFF → ∃ t, exec i s = .next t ∧ Stored i (BitVec.ofNat 16 n) s t) ∧
    (n = 0xFFFF → ∃ t, exec i s = .next t ∧ RangeFaulted i s t)

/-- `TAX` and `TAY` (42_transfer_increment.md R101, R102): one byte long, they complete in every
state, with the whole frame. -/
def Obligations.TransfersComplete : Prop :=
  encode .tax = [0xAA] ∧ encode .tay = [0xA8] ∧ ∀ s : State,
    (∃ t, exec .tax s = .next t ∧ t.x = s.a ∧ FlagsFrom t.x s.p t.p ∧ t.a = s.a ∧ t.y = s.y ∧
      t.mem = s.mem ∧ Sequenced .tax s t) ∧
    (∃ t, exec .tay s = .next t ∧ t.y = s.a ∧ FlagsFrom t.y s.p t.p ∧ t.a = s.a ∧ t.x = s.x ∧
      t.mem = s.mem ∧ Sequenced .tay s t)

/-- `INX` and `INY` (42_transfer_increment.md R103, R104): one byte long, they complete in every
state, with the whole frame. -/
def Obligations.IncrementsComplete : Prop :=
  encode .inx = [0xE8] ∧ encode .iny = [0xC8] ∧ ∀ s : State,
    (∃ t, exec .inx s = .next t ∧ t.x.toNat = (s.x.toNat + 1) % 256 ∧ FlagsFrom t.x s.p t.p ∧
      t.a = s.a ∧ t.y = s.y ∧ t.mem = s.mem ∧ Sequenced .inx s t) ∧
    (∃ t, exec .iny s = .next t ∧ t.y.toNat = (s.y.toNat + 1) % 256 ∧ FlagsFrom t.y s.p t.p ∧
      t.a = s.a ∧ t.x = s.x ∧ t.mem = s.mem ∧ Sequenced .iny s t)

/-- `BRK` (Halt) (43_halt_and_dispatch.md R109): the sequencer is Halted, PC one past the byte, no
register, flag or cell changes. -/
def Obligations.HaltCompletes : Prop :=
  encode .brk = [0x00] ∧ ∀ s : State, ∃ t, exec .brk s = .next t ∧ t.runState = .halted ∧
    t.pc = s.pc + 1 ∧ t.a = s.a ∧ t.x = s.x ∧ t.y = s.y ∧ t.p = s.p ∧ t.mem = s.mem ∧
    t.op = 0x00 ∧ t.opaddr = s.pc ∧ t.mode = .none ∧ t.len = .one ∧
    t.preDispatchPC = s.pc + 1 ∧ t.fault = s.fault ∧ t.freeCount = s.freeCount

/-! ### Whole-machine rules -/

/-- 10_state.md R14 to R17, 42_transfer_increment.md R108: which operations write A, X, Y, P and
memory. -/
def Obligations.WritersOfEachRegister : Prop :=
  ∀ (i : Instr) (s t : State), exec i s = .next t →
    (t.a ≠ s.a → i.operation = .loadAccumulator) ∧
    (t.x ≠ s.x → i.operation = .transferAccumulatorToX ∨ i.operation = .incrementX) ∧
    (t.y ≠ s.y → i.operation = .transferAccumulatorToY ∨ i.operation = .incrementY) ∧
    (t.p ≠ s.p → i.operation ≠ .storeAccumulator ∧ i.operation ≠ .halt) ∧
    (t.mem ≠ s.mem → i.operation = .storeAccumulator)

/-- 43_halt_and_dispatch.md R118: control flow is sequential. An instruction ends at the next
instruction, in Halted if it is Halt, or in Faulted. -/
def Obligations.ControlIsSequential : Prop :=
  ∀ (i : Instr) (s t : State), exec i s = .next t →
    (t.runState = .fetching ∧ i ≠ .brk ∧ t.pc = s.pc + BitVec.ofNat 16 i.len.toNat) ∨
    (t.runState = .halted ∧ i = .brk ∧ t.pc = s.pc + 1) ∨
    (t.runState = .faulted ∧ i ≠ .brk ∧ t.pc = s.pc + 1)

/-- 43_halt_and_dispatch.md R118, 10_state.md R21: a step that goes on raises PC; it never wraps. -/
def Obligations.ProgramCounterRises : Prop :=
  ∀ s t : State, s.runState = .fetching → step s = .next t → t.runState = .fetching →
    s.pc.toNat < t.pc.toNat ∧ t.pc.toNat ≤ s.pc.toNat + 3

/-- 43_halt_and_dispatch.md R118, R122, R123: every run of this hardware ends, from every state,
after at most 65537 steps (65535 instructions, the fetch at 0xFFFF, and one step more where the run
begins inside an instruction). That a run may begin there, and that a step in Halted or Faulted
leaves the state as it is, are the model's (DEDUCED, log entries 10 and 2). -/
def Obligations.EveryRunEnds : Prop :=
  ∀ s : State, ∃ t, Host.Core.run core 65537 s = .next t ∧ RunOver t

/-- 43_halt_and_dispatch.md R117, R123: with MEM_SIZE = 65535 and any well-formed opcode table, Run
ends. -/
def Obligations.EveryRunOfAWellFormedTableEnds : Prop :=
  ∀ (k : Params) (s : State), k.WellFormed → k.memSize = .cells65535 → s.runState = .fetching →
    RunOver (sequencerRun k 65536 s)

/-- 43_halt_and_dispatch.md R115: Halted is reached only via Halt, executes nothing, and a run
request in it does nothing. The last, and that only reset leaves Halted, is the spec's own decision
D10; that a step leaves the state as it is is log entry 2 (DEDUCED). -/
def Obligations.HaltedOnlyViaHalt : Prop :=
  (∀ s t : State, s.runState ≠ .halted → step s = .next t → t.runState = .halted →
    (s.runState = .fetching ∧ readByte hardware s.mem s.pc = .ok 0x00) ∨
    ((s.runState = .decoding ∨ s.runState = .executing) ∧ s.op = 0x00)) ∧
  (∀ s : State, s.runState = .halted →
    step s = .next s ∧ (∀ k n, sequencerRun k n s = s) ∧
    ∀ k, (applyReset k s).runState = .fetching)

/-- 60_exceptions.md R134, R135: Faulted is sticky, and its error record is never overwritten; reset
leaves it. That is the spec's own decision D10; that a step leaves the state as it is is log entry 2
(DEDUCED). -/
def Obligations.FaultedIsSticky : Prop :=
  ∀ s : State, s.runState = .faulted →
    step s = .next s ∧ (∀ k n, sequencerRun k n s = s) ∧
    ∀ k, (applyReset k s).runState = .fetching ∧ (applyReset k s).fault = none

/-- Every step keeps the sequencer at a boundary, with an error recorded exactly in Faulted
(10_state.md R30, R31). -/
def Obligations.StepKeepsSequencerInv : Prop :=
  ∀ s t : State, SequencerInv s → step s = .next t → SequencerInv t

/-- No step stops the model: a fatal error is a state the spec describes (60_exceptions.md R128,
R131; log entry 1). -/
def Obligations.StepAlwaysAnswersNext : Prop :=
  ∀ s : State, ∃ t, step s = .next t

/-! ### Stepping -/

/-- 43_halt_and_dispatch.md R116: when the bytes at PC decode to a well-formed instruction, the step
is that instruction's `exec`, with nothing around it. -/
def Obligations.StepRunsDecodedInstruction : Prop :=
  ∀ (s : State) (n : Nat) (bs rest : List Byte) (i : Instr), s.runState = .fetching →
    readBytes hardware s.mem s.pc n = .ok bs → decode bs = .ok (i, rest) → i.wf = true →
    step s = exec i s

/-- The host's probe: a table word placed at PC is the instruction the next step runs (the model's
own interface, log entries 13 and 18). -/
def Obligations.FetchWordRunsNext : Prop :=
  ∀ (s : State) (n w : Nat) (i : Instr), s.pc.toNat ≤ 0xFFFC → decodeTableWord n w = some i →
    step (s.withFetchWord n w) = exec i (s.withFetchWord n w)

/-- 43_halt_and_dispatch.md R110 to R117: `step`, which runs an instruction in one call, is the
literal sequencer of R116 run through its phases, in every state. -/
def Obligations.StepRefinesSequencer : Prop :=
  ∀ s : State, step s = .next (sequencerStep hardware s)

/-- 43_halt_and_dispatch.md R110: the transitions of the sequencer, for any table. -/
def Obligations.SequencerTransitions : Prop :=
  ∀ (k : Params) (s : State),
    (s.runState = .fetching → ∀ b, readByte k s.mem s.pc = .ok b →
      (phase k s).runState = .decoding ∧ (phase k s).op = b ∧ (phase k s).pc = s.pc + 1) ∧
    (s.runState = .fetching → ∀ e, readByte k s.mem s.pc = .error e →
      (phase k s).runState = .faulted ∧ (phase k s).pc = s.pc) ∧
    (s.runState = .decoding → ∀ d, k.optable s.op = some d →
      (phase k s).runState = .executing ∧ (phase k s).mode = d.mode ∧ (phase k s).len = d.len) ∧
    (s.runState = .decoding → k.optable s.op = none →
      (phase k s).runState = .faulted ∧
        (phase k s).fault = some (.unsupportedOpcode s.op s.opaddr)) ∧
    (s.runState = .executing → k.opsel s.op = none →
      (phase k s).runState = .faulted ∧
        (phase k s).fault = some (.unsupportedOpcode s.op s.opaddr)) ∧
    (s.runState = .executing → k.opsel s.op = some .halt → (phase k s).runState = .halted) ∧
    (s.runState = .executing → ∀ o, k.opsel s.op = some o → o ≠ .halt →
      (phase k s).preDispatchPC = s.pc ∧ (phase k s).pc = s.pc ∧
        ((phase k s).runState = .advancing ∨ (phase k s).runState = .faulted)) ∧
    (s.runState = .advancing → (phase k s).runState = .fetching) ∧
    (RunOver s → phase k s = s)

/-- 43_halt_and_dispatch.md R114, R119: Advancing compares values. It adds `len - 1` modulo 65536
when PC is where dispatch found it and leaves any other PC alone, and changes nothing else but the
sequencer's state. -/
def Obligations.AdvancingComparesProgramCounter : Prop :=
  ∀ s : State,
    (s.pc = s.preDispatchPC →
      (advance s).pc.toNat = (s.pc.toNat + (s.len.toNat - 1)) % 65536) ∧
    (s.pc ≠ s.preDispatchPC → (advance s).pc = s.pc) ∧
    advance s = { s with pc := (advance s).pc, runState := .fetching }

/-- 20_memory.md R50, 70_reset_and_hazards.md R158: a store of any form is seen by the very next
fetch. Of the bytes from the new PC on, the opcode byte and the operand bytes alike, one that lies in
the cell the store wrote is A. -/
def Obligations.StoreSeenByNextFetch : Prop :=
  ∀ (i : Instr) (s t : State) (n : Nat), i.operation = .storeAccumulator →
    dataAddress i s = some n → n ≠ 0xFFFF → exec i s = .next t →
    (t.pc = BitVec.ofNat 16 n →
      (fetchPhase hardware t).op = s.a ∧ (fetchPhase hardware t).runState = .decoding) ∧
    (∀ (len : Nat) (bs : List Byte), readBytes hardware t.mem t.pc len = .ok bs →
      ∀ (j : Nat) (h : j < bs.length), t.pc + BitVec.ofNat 16 j = BitVec.ofNat 16 n → bs[j] = s.a)

/-! ### Fatal errors -/

/-- 60_exceptions.md R126, R131: a step whose opcode byte is not one of the 20 faults with the byte
and its address, PC past the byte, nothing else changed. -/
def Obligations.UnsupportedOpcodeFaults : Prop :=
  ∀ (s : State) (b : Byte), s.runState = .fetching → readByte hardware s.mem s.pc = .ok b →
    b ∉ legalOpcodes →
    ∃ t, step s = .next t ∧ t.runState = .faulted ∧
      t.fault = some (.unsupportedOpcode b s.pc) ∧ t.pc = s.pc + 1 ∧ t.a = s.a ∧ t.x = s.x ∧
      t.y = s.y ∧ t.p = s.p ∧ t.mem = s.mem

/-- 30_encoding.md R57, R62, 60_exceptions.md R126: for any table, an opcode without a descriptor or
without an operation faults as unsupported. -/
def Obligations.OperationSetIsTheAuthority : Prop :=
  ∀ (k : Params) (s : State) (b : Byte), s.runState = .fetching →
    readByte k s.mem s.pc = .ok b → k.optable b = none ∨ k.opsel b = none →
    (sequencerStep k s).runState = .faulted ∧
      (sequencerStep k s).fault = some (.unsupportedOpcode b s.pc) ∧
      (sequencerStep k s).pc = s.pc + 1 ∧ (sequencerStep k s).a = s.a ∧
      (sequencerStep k s).x = s.x ∧ (sequencerStep k s).y = s.y ∧
      (sequencerStep k s).p = s.p ∧ (sequencerStep k s).mem = s.mem

/-- 60_exceptions.md R127, R131: an opcode fetch at 0xFFFF faults and PC is not incremented. The
opcode byte on record is a free value, of which nothing is said (DESIGN CHOICE, log entry 12). -/
def Obligations.FetchAtTopFaults : Prop :=
  ∀ s : State, s.runState = .fetching → s.pc = 0xFFFF →
    ∃ t, step s = .next t ∧ t.runState = .faulted ∧
      (∃ op, t.fault = some (.memoryRangeFault 0xFFFF 0xFFFF op)) ∧ t.pc = 0xFFFF ∧ t.a = s.a ∧
      t.x = s.x ∧ t.y = s.y ∧ t.p = s.p ∧ t.mem = s.mem

/-- 60_exceptions.md R127, R131: an instruction that straddles the top of memory faults on its
operand read, nothing but PC changed. -/
def Obligations.StraddlingInstructionFaults : Prop :=
  ∀ (s : State) (i : Instr), s.runState = .fetching →
    readByte hardware s.mem s.pc = .ok i.opcode → 0xFFFF < s.pc.toNat + i.len.toNat →
    ∃ t, step s = .next t ∧ RangeFaulted i s t

/-- 60_exceptions.md R131: errors are precise. A step that ends in an error has changed no register
but PC, no flag and no cell; PC is one past the opcode byte, or at 0xFFFF if the opcode fetch itself
failed; the record names the instruction's address. -/
def Obligations.ErrorsArePrecise : Prop :=
  ∀ s t : State, s.runState = .fetching → step s = .next t → t.runState = .faulted →
    t.a = s.a ∧ t.x = s.x ∧ t.y = s.y ∧ t.p = s.p ∧ t.mem = s.mem ∧ t.opaddr = s.pc ∧
    ((s.pc = 0xFFFF ∧ t.pc = s.pc) ∨ (s.pc ≠ 0xFFFF ∧ t.pc = s.pc + 1)) ∧
    ((∃ op, t.fault = some (.unsupportedOpcode op s.pc)) ∨
      (∃ op, t.fault = some (.memoryRangeFault 0xFFFF s.pc op)))

/-- 60_exceptions.md R129, 40_addressing_resolver.md R77: a load or store paired with NONE raises
InvalidAddressingModeUse; no well-formed table raises it. -/
def Obligations.InvalidModeOnlyFromBadTable : Prop :=
  (∀ (k : Params) (s : State) (b : Byte) (l : InstrLen) (o : Operation), s.runState = .fetching →
    readByte k s.mem s.pc = .ok b → k.optable b = some ⟨.none, l⟩ → k.opsel b = some o →
    o = .loadAccumulator ∨ o = .storeAccumulator →
    (sequencerStep k s).runState = .faulted ∧
      (sequencerStep k s).fault = some (.invalidAddressingModeUse b s.pc) ∧
      (sequencerStep k s).pc = s.pc + 1 ∧ (sequencerStep k s).a = s.a ∧
      (sequencerStep k s).x = s.x ∧ (sequencerStep k s).y = s.y ∧
      (sequencerStep k s).p = s.p ∧ (sequencerStep k s).mem = s.mem) ∧
  (∀ (k : Params) (s : State) (op : Byte) (opaddr : Addr), k.WellFormed →
    s.runState = .fetching →
    (sequencerStep k s).fault = some (.invalidAddressingModeUse op opaddr) →
    s.fault = some (.invalidAddressingModeUse op opaddr))

/-- 60_exceptions.md R127: for any table, a MemoryRangeFault that a step records is at 0xFFFF and the
memory has 65535 cells; with MEM_SIZE = 65536 the error does not exist. -/
def Obligations.RangeFaultOnlyAtTop : Prop :=
  ∀ (k : Params) (s : State) (addr opaddr : Addr) (op : Byte),
    (sequencerStep k s).fault = some (.memoryRangeFault addr opaddr op) →
    s.fault = some (.memoryRangeFault addr opaddr op) ∨
      (k.memSize = .cells65535 ∧ addr = 0xFFFF)

/-! ### Reset and the host -/

/-- 70_reset_and_hazards.md R144, R145: what reset writes and what it leaves alone, from any state. -/
def Obligations.ResetEffect : Prop :=
  ∀ (k : Params) (s : State),
    (applyReset k s).a = 0 ∧ (applyReset k s).x = 0 ∧ (applyReset k s).p = 0 ∧
    (applyReset k s).y = s.y ∧ (applyReset k s).mem = s.mem ∧
    (applyReset k s).pc.toNat =
      (readCell s.mem 0xFFFD).toNat * 256 + (readCell s.mem 0xFFFC).toNat ∧
    (applyReset k s).runState = .fetching ∧ (applyReset k s).fault = none

/-- 70_reset_and_hazards.md R144, R147, 10_state.md R33: the state after reset is reset applied to
any power-on state, but for the two values the model chose: Y = 0x00 (log entry 6) and memory that
reads 0x00 (log entry 7). The latches (log entry 8) and the model's own counter (log entry 21) are as
at power-on. -/
def Obligations.ResetStateFromPowerOn : Prop :=
  ∀ (a x p : Byte) (pc : Addr),
    applyReset hardware (State.powerOn a x 0x00 p pc []) = State.reset

/-- The invariants hold right after reset, the sequencer's and the status register's after a reset
of any state (10_state.md R26, R32). -/
def Obligations.InvariantsAtReset : Prop :=
  MemoryInv State.reset ∧ SequencerInv State.reset ∧ StatusInv State.reset ∧
  ∀ (k : Params) (s : State), SequencerInv (applyReset k s) ∧ StatusInv (applyReset k s)

/-- 70_reset_and_hazards.md R148, R149: loading writes the image from 0x8000 up and then the vector,
no other cell and no register; an image of more than 32767 bytes is refused, which is the spec's own
decision D14 and the model's choice (DESIGN CHOICE, log entry 15). -/
def Obligations.LoadEffect : Prop :=
  ∀ (image : List Byte) (s : State),
    (image.length ≤ 32767 → ∃ m', load hardware image s = .next { s with mem := m' } ∧
      readCell m' 0xFFFC = 0x00 ∧ readCell m' 0xFFFD = 0x80 ∧
      (∀ i (h : i < image.length), 0x8000 + i ≠ 0xFFFC → 0x8000 + i ≠ 0xFFFD →
        readCell m' (0x8000 + i) = image[i]) ∧
      (∀ n, n ≠ 0xFFFC → n ≠ 0xFFFD → n < 0x8000 ∨ 0x8000 + image.length ≤ n →
        readCell m' n = readCell s.mem n)) ∧
    (32767 < image.length → load hardware image s = .refused (.oversizedImage image.length))

/-- 70_reset_and_hazards.md R150: after loading and reset the run starts at 0x8000 with A, X and P
zero and Y as it was. -/
def Obligations.LoadAndRunStart : Prop :=
  ∀ (image : List Byte) (s : State), image.length ≤ 32767 →
    ∃ t u, load hardware image s = .next t ∧ u = applyReset hardware t ∧ u.pc = 0x8000 ∧
      u.a = 0 ∧ u.x = 0 ∧ u.p = 0 ∧ u.y = s.y ∧ u.runState = .fetching ∧ u.fault = none ∧
      ∀ n, loadAndRun hardware image n s = .next (sequencerRun hardware n u)

/-- 70_reset_and_hazards.md R153: the host writes one valid cell while the core is halted or faulted,
no register; during a run the write is refused. The permission is the spec's own decision D20, the two refusals
are the model's choice (DESIGN CHOICE, log entry 15). -/
def Obligations.HostWriteOnlyAtRest : Prop :=
  ∀ (addr : Addr) (v : Byte) (s : State),
    (RunOver s → addr ≠ 0xFFFF → ∃ m', hostWrite hardware addr v s = .next { s with mem := m' } ∧
      readByte hardware m' addr = .ok v ∧
      ∀ b : Addr, b ≠ addr → readByte hardware m' b = readByte hardware s.mem b) ∧
    (RunOver s → addr = 0xFFFF →
      hostWrite hardware addr v s = .refused (.hostWriteOutsideMemory addr)) ∧
    (¬ RunOver s → hostWrite hardware addr v s = .refused .hostWriteDuringRun)
end

