-- ==== Sys2Proof/Laws/Decode.lean ====
section
/-!
SUPPORT. What the decoder's table lookup can answer, and what assembling an instruction can.
-/

namespace Sys2Proof

/-- A lookup answers a row of the map whose opcode is the byte looked up. -/
theorem rowOf_eq_some {op : Byte} {r : OpcodeRow} (h : rowOf op = some r) :
    r ∈ opcodeRows ∧ r.opcode = op := by
  refine ⟨List.mem_of_find?_eq_some h, ?_⟩
  simpa using List.find?_some h

/-- A lookup fails exactly when no row has the byte. -/
theorem rowOf_eq_none {op : Byte} : rowOf op = none ↔ ∀ r ∈ opcodeRows, r.opcode ≠ op := by
  simp [rowOf, List.find?_eq_none]

/-- The map's opcode bytes are the 20 legal ones. -/
theorem opcodeRows_opcodes : opcodeRows.map OpcodeRow.opcode = Machine.legalOpcodes := rfl

/-- This hardware's OPTABLE, by row. -/
theorem hardware_optable (op : Byte) :
    hardware.optable op = (rowOf op).map (fun r => ⟨r.mode, r.len⟩) := rfl

/-- This hardware's OPSEL, by row: the two maps have one domain. -/
theorem hardware_opsel (op : Byte) :
    hardware.opsel op = (rowOf op).map (fun r => r.operation) := rfl

/-- Every row of the default map is well-formed (30_encoding.md R60). -/
theorem opcodeRows_wf : ∀ r ∈ opcodeRows, pairWf r.operation r.mode r.len = true := by decide

/-- The check of a table decides whether it is well-formed (30_encoding.md R60). -/
theorem check_iff_wellFormed (k : Params) : k.check = true ↔ k.WellFormed := by
  have hb : ∀ op, k.byteWf op = true ↔
      ∀ d o, k.optable op = some d → k.opsel op = some o → pairWf o d.mode d.len = true := by
    intro op
    unfold Params.byteWf
    cases k.optable op <;> cases k.opsel op <;> simp
  simp only [Params.check, List.all_eq_true, List.mem_range, hb, Params.WellFormed]
  refine ⟨fun h op => ?_, fun h n _ => h (BitVec.ofNat 8 n)⟩
  simpa using h op.toNat op.isLt

/-- The default map is well-formed (30_encoding.md R60). -/
theorem hardware_wellFormed : hardware.WellFormed := by
  intro op d o hd ho
  simp only [hardware_optable, hardware_opsel, Option.map_eq_some_iff] at hd ho
  obtain ⟨r, hr, rfl⟩ := hd
  obtain ⟨r', hr', rfl⟩ := ho
  rw [hr] at hr'
  cases hr'
  exact opcodeRows_wf r (rowOf_eq_some hr).1

/-- No two rows share an opcode byte, so decoding is unambiguous. -/
theorem opcodeRows_pairwise : opcodeRows.Pairwise (fun r r' => r.opcode ≠ r'.opcode) := by decide

end Sys2Proof
end

