-- ==== Sys2Proof/Laws/Memory.lean ====
section
/-!
SUPPORT. The laws of the cells and of the byte primitives: a read after a write, and that every
memory operation keeps the canonical form and stays inside memory.
-/

namespace Sys2Proof.Machine

/-! ### Read after write -/

theorem readCell_eraseCell_same (a : Nat) (m : Memory) :
    readCell (eraseCell a m) a = unlistedByte := by
  induction m with
  | nil => rfl
  | cons c m ih =>
    obtain ⟨k, u⟩ := c
    by_cases h : k = a <;> simp [eraseCell, readCell, h, ih]

theorem readCell_eraseCell_ne {a b : Nat} (hb : b ≠ a) (m : Memory) :
    readCell (eraseCell a m) b = readCell m b := by
  induction m with
  | nil => rfl
  | cons c m ih =>
    obtain ⟨k, u⟩ := c
    by_cases h : k = a
    · subst h
      simp [eraseCell, readCell, ih, Ne.symm hb]
    · simp only [eraseCell, readCell, h, if_false, ih]

theorem readCell_insertCell_same (a : Nat) (v : Byte) (m : Memory) (h : ∀ c ∈ m, c.1 ≠ a) :
    readCell (insertCell a v m) a = v := by
  induction m with
  | nil => simp [insertCell, readCell]
  | cons c m ih =>
    obtain ⟨k, u⟩ := c
    have hk : k ≠ a := h (k, u) (by simp)
    have hm := ih (fun c hc => h c (by simp [hc]))
    by_cases hl : a < k <;> simp [insertCell, readCell, hl, hk, hm]

theorem readCell_insertCell_ne {a b : Nat} (hb : b ≠ a) (v : Byte) (m : Memory) :
    readCell (insertCell a v m) b = readCell m b := by
  induction m with
  | nil => simp [insertCell, readCell, Ne.symm hb]
  | cons c m ih =>
    obtain ⟨k, u⟩ := c
    by_cases hl : a < k
    · simp [insertCell, readCell, hl, Ne.symm hb]
    · simp only [insertCell, readCell, hl, if_false, ih]

theorem mem_eraseCell {a : Nat} {m : Memory} {c : Host.Cell} (h : c ∈ eraseCell a m) :
    c ∈ m ∧ c.1 ≠ a := by
  induction m with
  | nil => simp [eraseCell] at h
  | cons d m ih =>
    obtain ⟨k, u⟩ := d
    by_cases hk : k = a
    · simp only [eraseCell, hk, if_pos] at h
      exact ⟨List.mem_cons_of_mem _ (ih h).1, (ih h).2⟩
    · simp only [eraseCell, hk, if_neg, not_false_eq_true, List.mem_cons] at h
      rcases h with rfl | h
      · exact ⟨by simp, hk⟩
      · exact ⟨List.mem_cons_of_mem _ (ih h).1, (ih h).2⟩

/-- A cell reads what was last written to it. -/
@[simp] theorem readCell_writeCell_same (m : Memory) (a : Nat) (v : Byte) :
    readCell (writeCell m a v) a = v := by
  unfold writeCell
  split
  · rw [readCell_eraseCell_same]
    exact Eq.symm ‹_›
  · exact readCell_insertCell_same _ _ _ fun c hc => (mem_eraseCell hc).2

/-- A write leaves every other cell alone. -/
theorem readCell_writeCell_ne {a b : Nat} (hb : b ≠ a) (m : Memory) (v : Byte) :
    readCell (writeCell m a v) b = readCell m b := by
  unfold writeCell
  split
  · exact readCell_eraseCell_ne hb m
  · rw [readCell_insertCell_ne hb, readCell_eraseCell_ne hb]

/-- The two write laws in one. -/
theorem readCell_writeCell (m : Memory) (a b : Nat) (v : Byte) :
    readCell (writeCell m a v) b = if b = a then v else readCell m b := by
  by_cases h : b = a
  · subst h
    simp
  · simp [h, readCell_writeCell_ne h]

/-! ### The canonical form -/

theorem wfFrom_mono {lo lo' : Nat} (h : lo' ≤ lo) {m : Memory} (hm : Memory.wfFrom lo m = true) :
    Memory.wfFrom lo' m = true := by
  cases m with
  | nil => rfl
  | cons c m =>
    obtain ⟨k, u⟩ := c
    simp only [Memory.wfFrom, Bool.and_eq_true, decide_eq_true_eq] at hm ⊢
    exact ⟨⟨le_trans h hm.1.1, hm.1.2⟩, hm.2⟩

theorem wfFrom_eraseCell (a : Nat) {m : Memory} : ∀ {lo : Nat}, Memory.wfFrom lo m = true →
    Memory.wfFrom lo (eraseCell a m) = true := by
  induction m with
  | nil => intro lo h; rfl
  | cons c m ih =>
    obtain ⟨k, u⟩ := c
    intro lo h
    simp only [Memory.wfFrom, Bool.and_eq_true, decide_eq_true_eq] at h
    by_cases hk : k = a
    · simp only [eraseCell, hk, if_pos]
      exact wfFrom_mono (by omega) (ih h.2)
    · simp only [eraseCell, hk, if_neg, not_false_eq_true, Memory.wfFrom, Bool.and_eq_true,
        decide_eq_true_eq]
      exact ⟨h.1, ih h.2⟩

theorem wfFrom_insertCell {a : Nat} {v : Byte} (hv : v ≠ unlistedByte) {m : Memory} :
    ∀ {lo : Nat}, lo ≤ a → (∀ c ∈ m, c.1 ≠ a) → Memory.wfFrom lo m = true →
      Memory.wfFrom lo (insertCell a v m) = true := by
  induction m with
  | nil => intro lo hlo _ _; simp [insertCell, Memory.wfFrom, hlo, hv]
  | cons c m ih =>
    obtain ⟨k, u⟩ := c
    intro lo hlo hne h
    simp only [Memory.wfFrom, Bool.and_eq_true, decide_eq_true_eq] at h
    have hk : k ≠ a := hne (k, u) (by simp)
    by_cases hl : a < k
    · simp only [insertCell, hl, if_pos, Memory.wfFrom, Bool.and_eq_true, decide_eq_true_eq]
      exact ⟨⟨hlo, by simpa using hv⟩, ⟨hl, h.1.2⟩, h.2⟩
    · simp only [insertCell, hl, if_neg, not_false_eq_true, Memory.wfFrom, Bool.and_eq_true,
        decide_eq_true_eq]
      exact ⟨h.1, ih (by omega) (fun c hc => hne c (by simp [hc])) h.2⟩

/-- Writing a cell keeps the canonical form. -/
theorem wf_writeCell {m : Memory} (h : m.wf = true) (a : Nat) (v : Byte) :
    Memory.wf (writeCell m a v) = true := by
  unfold writeCell
  split
  · exact wfFrom_eraseCell a h
  · exact wfFrom_insertCell ‹_› (Nat.zero_le a) (fun c hc => (mem_eraseCell hc).2)
      (wfFrom_eraseCell a h)

theorem mem_insertCell {a : Nat} {v : Byte} {m : Memory} {c : Host.Cell}
    (h : c ∈ insertCell a v m) : c = (a, v) ∨ c ∈ m := by
  induction m with
  | nil => simpa [insertCell] using h
  | cons d m ih =>
    obtain ⟨k, u⟩ := d
    by_cases hl : a < k
    · simpa [insertCell, hl] using h
    · simp only [insertCell, hl, if_neg, not_false_eq_true, List.mem_cons] at h ⊢
      rcases h with h | h
      · exact .inr (.inl h)
      · rcases ih h with h | h
        · exact .inl h
        · exact .inr (.inr h)

/-- Writing a cell that exists lists only cells that exist. -/
theorem within_writeCell {n : Nat} {m : Memory} (h : m.within n = true) {a : Nat} (ha : a < n)
    (v : Byte) : Memory.within n (writeCell m a v) = true := by
  simp only [Memory.within, List.all_eq_true, decide_eq_true_eq] at h ⊢
  intro c hc
  unfold writeCell at hc
  split at hc
  · exact h c (mem_eraseCell hc).1
  · rcases mem_insertCell hc with rfl | hc
    · exact ha
    · exact h c (mem_eraseCell hc).1

/-- Reset's memory has the canonical form. -/
theorem reset_mem_wf : State.reset.mem.wf = true := rfl

/-! ### The byte primitives -/

@[simp] theorem hardware_memSize : hardware.memSize = .cells65535 := rfl

@[simp] theorem cells_cells65535 : MemSize.cells65535.cells = 65535 := rfl

@[simp] theorem cells_cells65536 : MemSize.cells65536.cells = 65536 := rfl

/-- A read answers the byte of the cell, or the cell does not exist. -/
theorem readByte_of_lt {k : Params} {m : Memory} {addr : Addr} (h : addr.toNat < k.memSize.cells) :
    readByte k m addr = .ok (readCell m addr.toNat) := by
  simp [readByte, h]

theorem readByte_of_le {k : Params} {m : Memory} {addr : Addr} (h : k.memSize.cells ≤ addr.toNat) :
    readByte k m addr = .error (.memoryRangeFault addr) := by
  simp [readByte, Nat.not_lt.mpr h]

theorem readByte_eq_ok {k : Params} {m : Memory} {addr : Addr} {b : Byte}
    (h : readByte k m addr = .ok b) :
    addr.toNat < k.memSize.cells ∧ b = readCell m addr.toNat := by
  unfold readByte at h
  split at h
  · exact ⟨‹_›, (Except.ok.inj h).symm⟩
  · cases h

theorem readByte_eq_error {k : Params} {m : Memory} {addr : Addr} {e : FatalError}
    (h : readByte k m addr = .error e) :
    k.memSize.cells ≤ addr.toNat ∧ e = .memoryRangeFault addr := by
  unfold readByte at h
  split at h
  · cases h
  · exact ⟨by omega, (Except.error.inj h).symm⟩

theorem writeByte_of_lt {k : Params} {m : Memory} {addr : Addr} (v : Byte)
    (h : addr.toNat < k.memSize.cells) :
    writeByte k m addr v = .ok (writeCell m addr.toNat v) := by
  simp [writeByte, h]

theorem writeByte_of_le {k : Params} {m : Memory} {addr : Addr} (v : Byte)
    (h : k.memSize.cells ≤ addr.toNat) :
    writeByte k m addr v = .error (.memoryRangeFault addr) := by
  simp [writeByte, Nat.not_lt.mpr h]

theorem writeByte_eq_ok {k : Params} {m m' : Memory} {addr : Addr} {v : Byte}
    (h : writeByte k m addr v = .ok m') :
    addr.toNat < k.memSize.cells ∧ m' = writeCell m addr.toNat v := by
  unfold writeByte at h
  split at h
  · exact ⟨‹_›, (Except.ok.inj h).symm⟩
  · cases h

theorem writeByte_eq_error {k : Params} {m : Memory} {addr : Addr} {v : Byte} {e : FatalError}
    (h : writeByte k m addr v = .error e) :
    k.memSize.cells ≤ addr.toNat ∧ e = .memoryRangeFault addr := by
  unfold writeByte at h
  split at h
  · cases h
  · exact ⟨by omega, (Except.error.inj h).symm⟩

/-- A byte write keeps the canonical form. -/
theorem wf_writeByte {k : Params} {m m' : Memory} {addr : Addr} {v : Byte} (hm : m.wf = true)
    (h : writeByte k m addr v = .ok m') : m'.wf = true := by
  obtain ⟨-, rfl⟩ := writeByte_eq_ok h
  exact wf_writeCell hm _ _

/-- A byte write lists only cells that exist. -/
theorem within_writeByte {k : Params} {m m' : Memory} {addr : Addr} {v : Byte}
    (hm : m.within k.memSize.cells = true) (h : writeByte k m addr v = .ok m') :
    m'.within k.memSize.cells = true := by
  obtain ⟨hlt, rfl⟩ := writeByte_eq_ok h
  exact within_writeCell hm hlt _

/-! ### The operations built on the byte write keep the canonical form -/

/-- A word write keeps the canonical form, half written or not. -/
theorem wf_writeWord {m : Memory} (k : Params) (addr v : Addr) (hm : m.wf = true) :
    (writeWord k m addr v).1.wf = true := by
  unfold writeWord
  split
  · exact hm
  · split
    · exact wf_writeByte hm ‹_›
    · exact wf_writeByte (wf_writeByte hm ‹_›) ‹_›

/-- A word write lists only cells that exist. -/
theorem within_writeWord {m : Memory} (k : Params) (addr v : Addr)
    (hm : m.within k.memSize.cells = true) :
    (writeWord k m addr v).1.within k.memSize.cells = true := by
  unfold writeWord
  split
  · exact hm
  · split
    · exact within_writeByte hm ‹_›
    · exact within_writeByte (within_writeByte hm ‹_›) ‹_›

/-- Copying an image keeps the canonical form. -/
theorem wf_copyImage (image : List Byte) : ∀ {m : Memory} (a : Nat), m.wf = true →
    (copyImage m a image).wf = true := by
  induction image with
  | nil => exact fun _ h => h
  | cons b bs ih => exact fun a h => ih (a + 1) (wf_writeCell h a b)

/-- Placing bytes keeps the canonical form. -/
theorem wf_placeBytes (bs : List Byte) : ∀ {m : Memory} (addr : Addr), m.wf = true →
    (placeBytes m addr bs).wf = true := by
  induction bs with
  | nil => exact fun _ h => h
  | cons b bs ih =>
    intro m addr h
    refine ih _ ?_
    split
    · exact wf_writeByte h ‹_›
    · exact h

/-! ### Bytes and words as numbers -/

@[simp] theorem zext16_toNat (b : Byte) : (zext16 b).toNat = b.toNat := by
  have := b.isLt
  simp [zext16, BitVec.toNat_setWidth]
  omega

theorem wordOf_toNat (hi lo : Byte) : (wordOf hi lo).toNat = hi.toNat * 256 + lo.toNat := by
  have h : wordOf hi lo = hi ++ lo := rfl
  have := lo.isLt
  rw [h, BitVec.toNat_append, ← Nat.shiftLeft_add_eq_or_of_lt this, Nat.shiftLeft_eq]

theorem loByte_toNat (v : Addr) : (loByte v).toNat = v.toNat % 256 := by
  simp [loByte, BitVec.extractLsb'_toNat]

theorem hiByte_toNat (v : Addr) : (hiByte v).toNat = v.toNat / 256 := by
  have := v.isLt
  simp [hiByte, BitVec.extractLsb'_toNat, Nat.shiftRight_eq_div_pow]
  omega

@[simp] theorem wordOf_hiByte_loByte (v : Addr) : wordOf (hiByte v) (loByte v) = v := by
  apply BitVec.eq_of_toNat_eq
  rw [wordOf_toNat, hiByte_toNat, loByte_toNat]
  omega

@[simp] theorem loByte_wordOf (hi lo : Byte) : loByte (wordOf hi lo) = lo := by
  apply BitVec.eq_of_toNat_eq
  have := lo.isLt
  rw [loByte_toNat, wordOf_toNat]
  omega

@[simp] theorem hiByte_wordOf (hi lo : Byte) : hiByte (wordOf hi lo) = hi := by
  apply BitVec.eq_of_toNat_eq
  have := lo.isLt
  rw [hiByte_toNat, wordOf_toNat]
  omega

end Sys2Proof.Machine
end

