-- ==== Sys2Proof/Laws/State.lean ====
section
/-!
SUPPORT. For every named update of the state, what each field is after it, so that no later proof
unfolds a record update.
-/

namespace Sys2Proof.Machine

/-! ### setAccumulator -/

@[simp] theorem setAccumulator_a (v : Byte) (s : State) : (setAccumulator v s).a = v := rfl
@[simp] theorem setAccumulator_x (v : Byte) (s : State) : (setAccumulator v s).x = s.x := rfl
@[simp] theorem setAccumulator_y (v : Byte) (s : State) : (setAccumulator v s).y = s.y := rfl
@[simp] theorem setAccumulator_p (v : Byte) (s : State) :
    (setAccumulator v s).p = setZN s.p v := rfl
@[simp] theorem setAccumulator_pc (v : Byte) (s : State) : (setAccumulator v s).pc = s.pc := rfl
@[simp] theorem setAccumulator_mem (v : Byte) (s : State) : (setAccumulator v s).mem = s.mem := rfl
@[simp] theorem setAccumulator_runState (v : Byte) (s : State) :
    (setAccumulator v s).runState = s.runState := rfl
@[simp] theorem setAccumulator_op (v : Byte) (s : State) : (setAccumulator v s).op = s.op := rfl
@[simp] theorem setAccumulator_opaddr (v : Byte) (s : State) :
    (setAccumulator v s).opaddr = s.opaddr := rfl
@[simp] theorem setAccumulator_mode (v : Byte) (s : State) :
    (setAccumulator v s).mode = s.mode := rfl
@[simp] theorem setAccumulator_len (v : Byte) (s : State) : (setAccumulator v s).len = s.len := rfl
@[simp] theorem setAccumulator_preDispatchPC (v : Byte) (s : State) :
    (setAccumulator v s).preDispatchPC = s.preDispatchPC := rfl
@[simp] theorem setAccumulator_fault (v : Byte) (s : State) :
    (setAccumulator v s).fault = s.fault := rfl
@[simp] theorem setAccumulator_freeCount (v : Byte) (s : State) :
    (setAccumulator v s).freeCount = s.freeCount := rfl

/-! ### setIndexX -/

@[simp] theorem setIndexX_a (v : Byte) (s : State) : (setIndexX v s).a = s.a := rfl
@[simp] theorem setIndexX_x (v : Byte) (s : State) : (setIndexX v s).x = v := rfl
@[simp] theorem setIndexX_y (v : Byte) (s : State) : (setIndexX v s).y = s.y := rfl
@[simp] theorem setIndexX_p (v : Byte) (s : State) : (setIndexX v s).p = setZN s.p v := rfl
@[simp] theorem setIndexX_pc (v : Byte) (s : State) : (setIndexX v s).pc = s.pc := rfl
@[simp] theorem setIndexX_mem (v : Byte) (s : State) : (setIndexX v s).mem = s.mem := rfl
@[simp] theorem setIndexX_runState (v : Byte) (s : State) :
    (setIndexX v s).runState = s.runState := rfl
@[simp] theorem setIndexX_op (v : Byte) (s : State) : (setIndexX v s).op = s.op := rfl
@[simp] theorem setIndexX_opaddr (v : Byte) (s : State) : (setIndexX v s).opaddr = s.opaddr := rfl
@[simp] theorem setIndexX_mode (v : Byte) (s : State) : (setIndexX v s).mode = s.mode := rfl
@[simp] theorem setIndexX_len (v : Byte) (s : State) : (setIndexX v s).len = s.len := rfl
@[simp] theorem setIndexX_preDispatchPC (v : Byte) (s : State) :
    (setIndexX v s).preDispatchPC = s.preDispatchPC := rfl
@[simp] theorem setIndexX_fault (v : Byte) (s : State) : (setIndexX v s).fault = s.fault := rfl
@[simp] theorem setIndexX_freeCount (v : Byte) (s : State) :
    (setIndexX v s).freeCount = s.freeCount := rfl

/-! ### setIndexY -/

@[simp] theorem setIndexY_a (v : Byte) (s : State) : (setIndexY v s).a = s.a := rfl
@[simp] theorem setIndexY_x (v : Byte) (s : State) : (setIndexY v s).x = s.x := rfl
@[simp] theorem setIndexY_y (v : Byte) (s : State) : (setIndexY v s).y = v := rfl
@[simp] theorem setIndexY_p (v : Byte) (s : State) : (setIndexY v s).p = setZN s.p v := rfl
@[simp] theorem setIndexY_pc (v : Byte) (s : State) : (setIndexY v s).pc = s.pc := rfl
@[simp] theorem setIndexY_mem (v : Byte) (s : State) : (setIndexY v s).mem = s.mem := rfl
@[simp] theorem setIndexY_runState (v : Byte) (s : State) :
    (setIndexY v s).runState = s.runState := rfl
@[simp] theorem setIndexY_op (v : Byte) (s : State) : (setIndexY v s).op = s.op := rfl
@[simp] theorem setIndexY_opaddr (v : Byte) (s : State) : (setIndexY v s).opaddr = s.opaddr := rfl
@[simp] theorem setIndexY_mode (v : Byte) (s : State) : (setIndexY v s).mode = s.mode := rfl
@[simp] theorem setIndexY_len (v : Byte) (s : State) : (setIndexY v s).len = s.len := rfl
@[simp] theorem setIndexY_preDispatchPC (v : Byte) (s : State) :
    (setIndexY v s).preDispatchPC = s.preDispatchPC := rfl
@[simp] theorem setIndexY_fault (v : Byte) (s : State) : (setIndexY v s).fault = s.fault := rfl
@[simp] theorem setIndexY_freeCount (v : Byte) (s : State) :
    (setIndexY v s).freeCount = s.freeCount := rfl

/-! ### setMemory -/

@[simp] theorem setMemory_a (m : Memory) (s : State) : (setMemory m s).a = s.a := rfl
@[simp] theorem setMemory_x (m : Memory) (s : State) : (setMemory m s).x = s.x := rfl
@[simp] theorem setMemory_y (m : Memory) (s : State) : (setMemory m s).y = s.y := rfl
@[simp] theorem setMemory_p (m : Memory) (s : State) : (setMemory m s).p = s.p := rfl
@[simp] theorem setMemory_pc (m : Memory) (s : State) : (setMemory m s).pc = s.pc := rfl
@[simp] theorem setMemory_mem (m : Memory) (s : State) : (setMemory m s).mem = m := rfl
@[simp] theorem setMemory_runState (m : Memory) (s : State) :
    (setMemory m s).runState = s.runState := rfl
@[simp] theorem setMemory_op (m : Memory) (s : State) : (setMemory m s).op = s.op := rfl
@[simp] theorem setMemory_opaddr (m : Memory) (s : State) : (setMemory m s).opaddr = s.opaddr := rfl
@[simp] theorem setMemory_mode (m : Memory) (s : State) : (setMemory m s).mode = s.mode := rfl
@[simp] theorem setMemory_len (m : Memory) (s : State) : (setMemory m s).len = s.len := rfl
@[simp] theorem setMemory_preDispatchPC (m : Memory) (s : State) :
    (setMemory m s).preDispatchPC = s.preDispatchPC := rfl
@[simp] theorem setMemory_fault (m : Memory) (s : State) : (setMemory m s).fault = s.fault := rfl
@[simp] theorem setMemory_freeCount (m : Memory) (s : State) :
    (setMemory m s).freeCount = s.freeCount := rfl

/-! ### fetched -/

@[simp] theorem fetched_a (b : Byte) (s : State) : (fetched b s).a = s.a := rfl
@[simp] theorem fetched_x (b : Byte) (s : State) : (fetched b s).x = s.x := rfl
@[simp] theorem fetched_y (b : Byte) (s : State) : (fetched b s).y = s.y := rfl
@[simp] theorem fetched_p (b : Byte) (s : State) : (fetched b s).p = s.p := rfl
@[simp] theorem fetched_pc (b : Byte) (s : State) : (fetched b s).pc = s.pc + 1 := rfl
@[simp] theorem fetched_mem (b : Byte) (s : State) : (fetched b s).mem = s.mem := rfl
@[simp] theorem fetched_runState (b : Byte) (s : State) : (fetched b s).runState = .decoding := rfl
@[simp] theorem fetched_op (b : Byte) (s : State) : (fetched b s).op = b := rfl
@[simp] theorem fetched_opaddr (b : Byte) (s : State) : (fetched b s).opaddr = s.pc := rfl
@[simp] theorem fetched_mode (b : Byte) (s : State) : (fetched b s).mode = s.mode := rfl
@[simp] theorem fetched_len (b : Byte) (s : State) : (fetched b s).len = s.len := rfl
@[simp] theorem fetched_preDispatchPC (b : Byte) (s : State) :
    (fetched b s).preDispatchPC = s.preDispatchPC := rfl
@[simp] theorem fetched_fault (b : Byte) (s : State) : (fetched b s).fault = s.fault := rfl
@[simp] theorem fetched_freeCount (b : Byte) (s : State) :
    (fetched b s).freeCount = s.freeCount := rfl

/-! ### decoded -/

@[simp] theorem decoded_a (d : Descriptor) (s : State) : (decoded d s).a = s.a := rfl
@[simp] theorem decoded_x (d : Descriptor) (s : State) : (decoded d s).x = s.x := rfl
@[simp] theorem decoded_y (d : Descriptor) (s : State) : (decoded d s).y = s.y := rfl
@[simp] theorem decoded_p (d : Descriptor) (s : State) : (decoded d s).p = s.p := rfl
@[simp] theorem decoded_pc (d : Descriptor) (s : State) : (decoded d s).pc = s.pc := rfl
@[simp] theorem decoded_mem (d : Descriptor) (s : State) : (decoded d s).mem = s.mem := rfl
@[simp] theorem decoded_runState (d : Descriptor) (s : State) :
    (decoded d s).runState = .executing := rfl
@[simp] theorem decoded_op (d : Descriptor) (s : State) : (decoded d s).op = s.op := rfl
@[simp] theorem decoded_opaddr (d : Descriptor) (s : State) : (decoded d s).opaddr = s.opaddr := rfl
@[simp] theorem decoded_mode (d : Descriptor) (s : State) : (decoded d s).mode = d.mode := rfl
@[simp] theorem decoded_len (d : Descriptor) (s : State) : (decoded d s).len = d.len := rfl
@[simp] theorem decoded_preDispatchPC (d : Descriptor) (s : State) :
    (decoded d s).preDispatchPC = s.preDispatchPC := rfl
@[simp] theorem decoded_fault (d : Descriptor) (s : State) : (decoded d s).fault = s.fault := rfl
@[simp] theorem decoded_freeCount (d : Descriptor) (s : State) :
    (decoded d s).freeCount = s.freeCount := rfl

/-! ### dispatched -/

@[simp] theorem dispatched_a (s : State) : (dispatched s).a = s.a := rfl
@[simp] theorem dispatched_x (s : State) : (dispatched s).x = s.x := rfl
@[simp] theorem dispatched_y (s : State) : (dispatched s).y = s.y := rfl
@[simp] theorem dispatched_p (s : State) : (dispatched s).p = s.p := rfl
@[simp] theorem dispatched_pc (s : State) : (dispatched s).pc = s.pc := rfl
@[simp] theorem dispatched_mem (s : State) : (dispatched s).mem = s.mem := rfl
@[simp] theorem dispatched_runState (s : State) : (dispatched s).runState = s.runState := rfl
@[simp] theorem dispatched_op (s : State) : (dispatched s).op = s.op := rfl
@[simp] theorem dispatched_opaddr (s : State) : (dispatched s).opaddr = s.opaddr := rfl
@[simp] theorem dispatched_mode (s : State) : (dispatched s).mode = s.mode := rfl
@[simp] theorem dispatched_len (s : State) : (dispatched s).len = s.len := rfl
@[simp] theorem dispatched_preDispatchPC (s : State) : (dispatched s).preDispatchPC = s.pc := rfl
@[simp] theorem dispatched_fault (s : State) : (dispatched s).fault = s.fault := rfl
@[simp] theorem dispatched_freeCount (s : State) : (dispatched s).freeCount = s.freeCount := rfl

/-! ### enter -/

@[simp] theorem enter_a (b : Byte) (d : Descriptor) (s : State) : (enter b d s).a = s.a := rfl
@[simp] theorem enter_x (b : Byte) (d : Descriptor) (s : State) : (enter b d s).x = s.x := rfl
@[simp] theorem enter_y (b : Byte) (d : Descriptor) (s : State) : (enter b d s).y = s.y := rfl
@[simp] theorem enter_p (b : Byte) (d : Descriptor) (s : State) : (enter b d s).p = s.p := rfl
@[simp] theorem enter_pc (b : Byte) (d : Descriptor) (s : State) :
    (enter b d s).pc = s.pc + 1 := rfl
@[simp] theorem enter_mem (b : Byte) (d : Descriptor) (s : State) : (enter b d s).mem = s.mem := rfl
@[simp] theorem enter_runState (b : Byte) (d : Descriptor) (s : State) :
    (enter b d s).runState = .executing := rfl
@[simp] theorem enter_op (b : Byte) (d : Descriptor) (s : State) : (enter b d s).op = b := rfl
@[simp] theorem enter_opaddr (b : Byte) (d : Descriptor) (s : State) :
    (enter b d s).opaddr = s.pc := rfl
@[simp] theorem enter_mode (b : Byte) (d : Descriptor) (s : State) :
    (enter b d s).mode = d.mode := rfl
@[simp] theorem enter_len (b : Byte) (d : Descriptor) (s : State) : (enter b d s).len = d.len := rfl
@[simp] theorem enter_preDispatchPC (b : Byte) (d : Descriptor) (s : State) :
    (enter b d s).preDispatchPC = s.pc + 1 := rfl
@[simp] theorem enter_fault (b : Byte) (d : Descriptor) (s : State) :
    (enter b d s).fault = s.fault := rfl
@[simp] theorem enter_freeCount (b : Byte) (d : Descriptor) (s : State) :
    (enter b d s).freeCount = s.freeCount := rfl

/-! ### enterInstr -/

@[simp] theorem enterInstr_a (i : Instr) (s : State) : (enterInstr i s).a = s.a := rfl
@[simp] theorem enterInstr_x (i : Instr) (s : State) : (enterInstr i s).x = s.x := rfl
@[simp] theorem enterInstr_y (i : Instr) (s : State) : (enterInstr i s).y = s.y := rfl
@[simp] theorem enterInstr_p (i : Instr) (s : State) : (enterInstr i s).p = s.p := rfl
@[simp] theorem enterInstr_pc (i : Instr) (s : State) : (enterInstr i s).pc = s.pc + 1 := rfl
@[simp] theorem enterInstr_mem (i : Instr) (s : State) : (enterInstr i s).mem = s.mem := rfl
@[simp] theorem enterInstr_runState (i : Instr) (s : State) :
    (enterInstr i s).runState = .executing := rfl
@[simp] theorem enterInstr_op (i : Instr) (s : State) : (enterInstr i s).op = i.opcode := rfl
@[simp] theorem enterInstr_opaddr (i : Instr) (s : State) : (enterInstr i s).opaddr = s.pc := rfl
@[simp] theorem enterInstr_mode (i : Instr) (s : State) : (enterInstr i s).mode = i.mode := rfl
@[simp] theorem enterInstr_len (i : Instr) (s : State) : (enterInstr i s).len = i.len := rfl
@[simp] theorem enterInstr_preDispatchPC (i : Instr) (s : State) :
    (enterInstr i s).preDispatchPC = s.pc + 1 := rfl
@[simp] theorem enterInstr_fault (i : Instr) (s : State) : (enterInstr i s).fault = s.fault := rfl
@[simp] theorem enterInstr_freeCount (i : Instr) (s : State) :
    (enterInstr i s).freeCount = s.freeCount := rfl

/-! ### executed -/

@[simp] theorem executed_a (s : State) : (executed s).a = s.a := rfl
@[simp] theorem executed_x (s : State) : (executed s).x = s.x := rfl
@[simp] theorem executed_y (s : State) : (executed s).y = s.y := rfl
@[simp] theorem executed_p (s : State) : (executed s).p = s.p := rfl
@[simp] theorem executed_pc (s : State) : (executed s).pc = s.pc := rfl
@[simp] theorem executed_mem (s : State) : (executed s).mem = s.mem := rfl
@[simp] theorem executed_runState (s : State) : (executed s).runState = .advancing := rfl
@[simp] theorem executed_op (s : State) : (executed s).op = s.op := rfl
@[simp] theorem executed_opaddr (s : State) : (executed s).opaddr = s.opaddr := rfl
@[simp] theorem executed_mode (s : State) : (executed s).mode = s.mode := rfl
@[simp] theorem executed_len (s : State) : (executed s).len = s.len := rfl
@[simp] theorem executed_preDispatchPC (s : State) :
    (executed s).preDispatchPC = s.preDispatchPC := rfl
@[simp] theorem executed_fault (s : State) : (executed s).fault = s.fault := rfl
@[simp] theorem executed_freeCount (s : State) : (executed s).freeCount = s.freeCount := rfl

/-! ### halted -/

@[simp] theorem halted_a (s : State) : (halted s).a = s.a := rfl
@[simp] theorem halted_x (s : State) : (halted s).x = s.x := rfl
@[simp] theorem halted_y (s : State) : (halted s).y = s.y := rfl
@[simp] theorem halted_p (s : State) : (halted s).p = s.p := rfl
@[simp] theorem halted_pc (s : State) : (halted s).pc = s.pc := rfl
@[simp] theorem halted_mem (s : State) : (halted s).mem = s.mem := rfl
@[simp] theorem halted_runState (s : State) : (halted s).runState = .halted := rfl
@[simp] theorem halted_op (s : State) : (halted s).op = s.op := rfl
@[simp] theorem halted_opaddr (s : State) : (halted s).opaddr = s.opaddr := rfl
@[simp] theorem halted_mode (s : State) : (halted s).mode = s.mode := rfl
@[simp] theorem halted_len (s : State) : (halted s).len = s.len := rfl
@[simp] theorem halted_preDispatchPC (s : State) : (halted s).preDispatchPC = s.preDispatchPC := rfl
@[simp] theorem halted_fault (s : State) : (halted s).fault = s.fault := rfl
@[simp] theorem halted_freeCount (s : State) : (halted s).freeCount = s.freeCount := rfl

/-! ### advance -/

@[simp] theorem advance_a (s : State) : (advance s).a = s.a := rfl
@[simp] theorem advance_x (s : State) : (advance s).x = s.x := rfl
@[simp] theorem advance_y (s : State) : (advance s).y = s.y := rfl
@[simp] theorem advance_p (s : State) : (advance s).p = s.p := rfl
@[simp] theorem advance_pc (s : State) :
    (advance s).pc =
      if s.pc = s.preDispatchPC then s.pc + BitVec.ofNat 16 s.len.operands else s.pc := rfl
@[simp] theorem advance_mem (s : State) : (advance s).mem = s.mem := rfl
@[simp] theorem advance_runState (s : State) : (advance s).runState = .fetching := rfl
@[simp] theorem advance_op (s : State) : (advance s).op = s.op := rfl
@[simp] theorem advance_opaddr (s : State) : (advance s).opaddr = s.opaddr := rfl
@[simp] theorem advance_mode (s : State) : (advance s).mode = s.mode := rfl
@[simp] theorem advance_len (s : State) : (advance s).len = s.len := rfl
@[simp] theorem advance_preDispatchPC (s : State) :
    (advance s).preDispatchPC = s.preDispatchPC := rfl
@[simp] theorem advance_fault (s : State) : (advance s).fault = s.fault := rfl
@[simp] theorem advance_freeCount (s : State) : (advance s).freeCount = s.freeCount := rfl

/-! ### raise -/

@[simp] theorem raise_a (e : FatalError) (s : State) : (raise e s).a = s.a := rfl
@[simp] theorem raise_x (e : FatalError) (s : State) : (raise e s).x = s.x := rfl
@[simp] theorem raise_y (e : FatalError) (s : State) : (raise e s).y = s.y := rfl
@[simp] theorem raise_p (e : FatalError) (s : State) : (raise e s).p = s.p := rfl
@[simp] theorem raise_pc (e : FatalError) (s : State) : (raise e s).pc = s.pc := rfl
@[simp] theorem raise_mem (e : FatalError) (s : State) : (raise e s).mem = s.mem := rfl
@[simp] theorem raise_runState (e : FatalError) (s : State) : (raise e s).runState = .faulted := rfl
@[simp] theorem raise_op (e : FatalError) (s : State) : (raise e s).op = s.op := rfl
@[simp] theorem raise_opaddr (e : FatalError) (s : State) : (raise e s).opaddr = s.opaddr := rfl
@[simp] theorem raise_mode (e : FatalError) (s : State) : (raise e s).mode = s.mode := rfl
@[simp] theorem raise_len (e : FatalError) (s : State) : (raise e s).len = s.len := rfl
@[simp] theorem raise_preDispatchPC (e : FatalError) (s : State) :
    (raise e s).preDispatchPC = s.preDispatchPC := rfl
@[simp] theorem raise_fault (e : FatalError) (s : State) :
    (raise e s).fault = some (faultRecord e s) := rfl
@[simp] theorem raise_freeCount (e : FatalError) (s : State) :
    (raise e s).freeCount = s.freeCount + 1 := rfl

/-! ### applyReset -/

@[simp] theorem applyReset_a (k : Params) (s : State) : (applyReset k s).a = 0x00 := rfl
@[simp] theorem applyReset_x (k : Params) (s : State) : (applyReset k s).x = 0x00 := rfl
@[simp] theorem applyReset_y (k : Params) (s : State) : (applyReset k s).y = s.y := rfl
@[simp] theorem applyReset_p (k : Params) (s : State) : (applyReset k s).p = 0x00 := rfl
@[simp] theorem applyReset_mem (k : Params) (s : State) : (applyReset k s).mem = s.mem := rfl
@[simp] theorem applyReset_runState (k : Params) (s : State) :
    (applyReset k s).runState = .fetching := rfl
@[simp] theorem applyReset_op (k : Params) (s : State) : (applyReset k s).op = s.op := rfl
@[simp] theorem applyReset_opaddr (k : Params) (s : State) :
    (applyReset k s).opaddr = s.opaddr := rfl
@[simp] theorem applyReset_mode (k : Params) (s : State) : (applyReset k s).mode = s.mode := rfl
@[simp] theorem applyReset_len (k : Params) (s : State) : (applyReset k s).len = s.len := rfl
@[simp] theorem applyReset_preDispatchPC (k : Params) (s : State) :
    (applyReset k s).preDispatchPC = s.preDispatchPC := rfl
@[simp] theorem applyReset_fault (k : Params) (s : State) : (applyReset k s).fault = none := rfl
@[simp] theorem applyReset_freeCount (k : Params) (s : State) :
    (applyReset k s).freeCount = s.freeCount := rfl

/-! ### The error record -/

/-- Every record names the instruction's address (60_exceptions.md R130). -/
@[simp] theorem faultOpaddr_faultRecord (e : FatalError) (s : State) :
    faultOpaddr (faultRecord e s) = s.opaddr := by
  cases e <;> rfl

/-- Every record raised after the opcode fetch names the opcode byte (60_exceptions.md R130). -/
theorem faultOpcode_faultRecord {s : State} (h : s.runState ≠ .fetching) (e : FatalError) :
    faultOpcode (faultRecord e s) = s.op := by
  cases e with
  | memoryRangeFault => exact if_neg h
  | unsupportedOpcode => rfl
  | invalidAddressingModeUse => rfl

end Sys2Proof.Machine
end

