-- ==== Sys2Proof/Laws/Resolver.lean ====
section
/-!
SUPPORT. What the resolver and the executor can do: addresses as numbers, and one lemma per shared
operation that says everything it can answer.
-/

namespace Sys2Proof.Machine

/-! ### Addresses as numbers -/

@[simp] theorem eaZp_toNat (d8 : Byte) : (eaZp d8).toNat = d8.toNat := zext16_toNat d8

@[simp] theorem eaZpIndexed_toNat (d8 index : Byte) :
    (eaZpIndexed d8 index).toNat = (d8.toNat + index.toNat) % 256 := by
  simp [eaZpIndexed, BitVec.toNat_add]

@[simp] theorem eaAbsIndexed_toNat (a16 : Addr) (index : Byte) :
    (eaAbsIndexed a16 index).toNat = (a16.toNat + index.toNat) % 65536 := by
  simp [eaAbsIndexed, BitVec.toNat_add]

theorem cells_gt_zeroPage (k : Params) : 0x100 < k.memSize.cells := by
  cases k.memSize <;> simp

/-- A zero-page read never faults, whatever MEM_SIZE is. -/
@[simp] theorem readByte_zext16 (k : Params) (m : Memory) (b : Byte) :
    readByte k m (zext16 b) = .ok (readCell m b.toNat) := by
  have := b.isLt
  have := cells_gt_zeroPage k
  rw [readByte_of_lt (by rw [zext16_toNat]; omega), zext16_toNat]

/-- Nor does the read of the cell above a zero-page cell. -/
@[simp] theorem readByte_zext16_succ (k : Params) (m : Memory) (b : Byte) :
    readByte k m (zext16 b + 1#16) = .ok (readCell m (b.toNat + 1)) := by
  have := b.isLt
  have := cells_gt_zeroPage k
  have h : (zext16 b + 1#16).toNat = b.toNat + 1 := by
    rw [BitVec.toNat_add, zext16_toNat]
    simp
    omega
  rw [readByte_of_lt (by omega), h]

/-- A word read answers the two bytes, or the first read that fails is its error. -/
theorem readWord_eq_ok {k : Params} {m : Memory} {addr w : Addr} (h : readWord k m addr = .ok w) :
    ∃ lo hi, readByte k m addr = .ok lo ∧ readByte k m (addr + 1) = .ok hi ∧ w = wordOf hi lo := by
  unfold readWord at h
  split at h
  · cases h
  · rename_i lo hlo
    split at h
    · cases h
    · rename_i hi hhi
      exact ⟨lo, hi, hlo, hhi, (Except.ok.inj h).symm⟩

theorem readWord_eq_error {k : Params} {m : Memory} {addr : Addr} {e : FatalError}
    (h : readWord k m addr = .error e) :
    readByte k m addr = .error e ∨ readByte k m (addr + 1) = .error e := by
  unfold readWord at h
  split at h
  · rename_i e' he
    exact .inl (by rw [he, ← Except.error.inj h])
  · split at h
    · rename_i e' he
      exact .inr (by rw [he, ← Except.error.inj h])
    · cases h

/-- The zero-page pointer when it does not wrap. -/
theorem zpWord_hardware (m : Memory) (p : Byte) :
    zpWord hardware m p = .ok (wordOf (readCell m (p.toNat + 1)) (readCell m p.toNat)) := by
  have h : hardware.zpPtrWrap = false := rfl
  simp [zpWord, h, readWord]

/-! ### The resolver writes nothing and reads nothing but PC, X, Y and memory (R79) -/

theorem effectiveAddress_congr {k : Params} {mode : AddrMode} {s t : State} (hpc : t.pc = s.pc)
    (hx : t.x = s.x) (hy : t.y = s.y) (hm : t.mem = s.mem) :
    effectiveAddress k mode t = effectiveAddress k mode s := by
  cases mode <;>
    simp [effectiveAddress, withOperandByte, withOperandWord, eaIzx, eaIzy, hpc, hx, hy, hm]

/-! ### The executor's shared operations -/

/-- All that Load-Accumulator can answer once the address is known. -/
theorem loadFrom_cases (k : Params) (ea : Addr) (s : State) :
    (∃ v, readByte k s.mem ea = .ok v ∧ loadFrom k ea s = .ok (setAccumulator v s)) ∨
    (∃ e, readByte k s.mem ea = .error e ∧ loadFrom k ea s = .error e) := by
  unfold loadFrom
  cases readByte k s.mem ea with
  | ok v => exact .inl ⟨v, rfl, rfl⟩
  | error e => exact .inr ⟨e, rfl, rfl⟩

/-- All that Store-Accumulator can answer once the address is known. -/
theorem storeTo_cases (k : Params) (ea : Addr) (s : State) :
    (∃ m, writeByte k s.mem ea s.a = .ok m ∧ storeTo k ea s = .ok (setMemory m s)) ∨
    (∃ e, writeByte k s.mem ea s.a = .error e ∧ storeTo k ea s = .error e) := by
  unfold storeTo
  cases writeByte k s.mem ea s.a with
  | ok m => exact .inl ⟨m, rfl, rfl⟩
  | error e => exact .inr ⟨e, rfl, rfl⟩

/-- All that a whole load instruction can do. -/
theorem runLoad_cases (i : Instr) (ea : State → Except FatalError Addr) (s : State) :
    (∃ addr v, ea (enterInstr i s) = .ok addr ∧ readByte hardware s.mem addr = .ok v ∧
      runLoad i ea s = .next (advance (executed (setAccumulator v (enterInstr i s))))) ∨
    (∃ e, (ea (enterInstr i s) = .error e ∨
        ∃ addr, ea (enterInstr i s) = .ok addr ∧ readByte hardware s.mem addr = .error e) ∧
      runLoad i ea s = .next (raise e (enterInstr i s))) := by
  unfold runLoad
  cases hea : ea (enterInstr i s) with
  | error e => exact .inr ⟨e, .inl rfl, rfl⟩
  | ok addr =>
    rcases loadFrom_cases hardware addr (enterInstr i s) with ⟨v, hv, h⟩ | ⟨e, he, h⟩
    · exact .inl ⟨addr, v, rfl, hv, by simp [atAddress, h, conclude]⟩
    · exact .inr ⟨e, .inr ⟨addr, rfl, he⟩, by simp [atAddress, h, conclude]⟩

/-- All that a whole store instruction can do. -/
theorem runStore_cases (i : Instr) (ea : State → Except FatalError Addr) (s : State) :
    (∃ addr m, ea (enterInstr i s) = .ok addr ∧ writeByte hardware s.mem addr s.a = .ok m ∧
      runStore i ea s = .next (advance (executed (setMemory m (enterInstr i s))))) ∨
    (∃ e, (ea (enterInstr i s) = .error e ∨
        ∃ addr, ea (enterInstr i s) = .ok addr ∧ writeByte hardware s.mem addr s.a = .error e) ∧
      runStore i ea s = .next (raise e (enterInstr i s))) := by
  unfold runStore
  cases hea : ea (enterInstr i s) with
  | error e => exact .inr ⟨e, .inl rfl, rfl⟩
  | ok addr =>
    rcases storeTo_cases hardware addr (enterInstr i s) with ⟨m, hm, h⟩ | ⟨e, he, h⟩
    · exact .inl ⟨addr, m, rfl, hm, by simp [atAddress, h, conclude]⟩
    · exact .inr ⟨e, .inr ⟨addr, rfl, he⟩, by simp [atAddress, h, conclude]⟩

/-- Advancing after an operation that left PC alone (R114). -/
theorem advance_executed_pc {t : State} (hpc : t.pc = t.preDispatchPC) :
    (advance (executed t)).pc = t.pc + BitVec.ofNat 16 t.len.operands := by
  simp [hpc]

end Sys2Proof.Machine
end

