-- ==== Sys2Proof/Laws/Exec.lean ====
section
/-!
SUPPORT. Said once: what the execution of an instruction can do. Every later fact about `exec` is
derived from `exec_cases` or, where the effective address matters, from the exact forms below it.
-/

namespace Sys2Proof.Machine

/-- An address that is no cell of this hardware is 0xFFFF. -/
theorem eq_top_of_cells_le {addr : Addr} (h : hardware.memSize.cells ≤ addr.toNat) :
    addr = 0xFFFF := by
  have := addr.isLt
  apply BitVec.eq_of_toNat_eq
  simp at h ⊢
  omega

/-- Every other address is a cell. -/
theorem lt_cells_of_ne_top {addr : Addr} (h : addr ≠ 0xFFFF) :
    addr.toNat < hardware.memSize.cells :=
  Nat.lt_of_not_le fun hle => h (eq_top_of_cells_le hle)

/-- The byte primitives on this hardware: 0xFFFF faults, every other address is a cell. -/
theorem readByte_hardware (m : Memory) {addr : Addr} (h : addr ≠ 0xFFFF) :
    readByte hardware m addr = .ok (readCell m addr.toNat) :=
  if_pos (lt_cells_of_ne_top h)

theorem readByte_hardware_top (m : Memory) :
    readByte hardware m 0xFFFF = .error (.memoryRangeFault 0xFFFF) := by
  simp [readByte]

theorem writeByte_hardware (m : Memory) (v : Byte) {addr : Addr} (h : addr ≠ 0xFFFF) :
    writeByte hardware m addr v = .ok (writeCell m addr.toNat v) :=
  if_pos (lt_cells_of_ne_top h)

theorem writeByte_hardware_top (m : Memory) (v : Byte) :
    writeByte hardware m 0xFFFF v = .error (.memoryRangeFault 0xFFFF) := by
  simp [writeByte]

theorem eaIzx_hardware (d8 : Byte) (s : State) : ∃ ea, eaIzx hardware d8 s = .ok ea :=
  ⟨_, zpWord_hardware s.mem (d8 + s.x)⟩

theorem eaIzy_hardware (d8 : Byte) (s : State) : ∃ ea, eaIzy hardware d8 s = .ok ea :=
  ⟨_, by rw [eaIzy, zpWord_hardware]⟩

/-- A load whose address is known to resolve: it reads the byte, or the address is 0xFFFF. -/
theorem runLoad_ok {i : Instr} {ea : State → Except FatalError Addr} {s : State} {addr : Addr}
    (h : ea (enterInstr i s) = .ok addr) :
    (addr ≠ 0xFFFF ∧ runLoad i ea s =
      .next (advance (executed (setAccumulator (readCell s.mem addr.toNat) (enterInstr i s))))) ∨
    (addr = 0xFFFF ∧ runLoad i ea s =
      .next (raise (.memoryRangeFault 0xFFFF) (enterInstr i s))) := by
  rcases runLoad_cases i ea s with ⟨addr', v, h', hv, hr⟩ | ⟨e, he, hr⟩
  · obtain rfl : addr' = addr := Except.ok.inj (h'.symm.trans h)
    obtain ⟨hlt, rfl⟩ := readByte_eq_ok hv
    refine .inl ⟨?_, hr⟩
    rintro rfl
    simp at hlt
  · rcases he with he | ⟨addr', h', he⟩
    · rw [h] at he
      cases he
    · obtain rfl : addr' = addr := Except.ok.inj (h'.symm.trans h)
      obtain ⟨hle, rfl⟩ := readByte_eq_error he
      obtain rfl := eq_top_of_cells_le hle
      exact .inr ⟨rfl, hr⟩

/-- A store whose address is known to resolve: it writes the byte, or the address is 0xFFFF. -/
theorem runStore_ok {i : Instr} {ea : State → Except FatalError Addr} {s : State} {addr : Addr}
    (h : ea (enterInstr i s) = .ok addr) :
    (addr ≠ 0xFFFF ∧ runStore i ea s =
      .next (advance (executed (setMemory (writeCell s.mem addr.toNat s.a) (enterInstr i s))))) ∨
    (addr = 0xFFFF ∧ runStore i ea s =
      .next (raise (.memoryRangeFault 0xFFFF) (enterInstr i s))) := by
  rcases runStore_cases i ea s with ⟨addr', m, h', hm, hr⟩ | ⟨e, he, hr⟩
  · obtain rfl : addr' = addr := Except.ok.inj (h'.symm.trans h)
    obtain ⟨hlt, rfl⟩ := writeByte_eq_ok hm
    refine .inl ⟨?_, hr⟩
    rintro rfl
    simp at hlt
  · rcases he with he | ⟨addr', h', he⟩
    · rw [h] at he
      cases he
    · obtain rfl : addr' = addr := Except.ok.inj (h'.symm.trans h)
      obtain ⟨hle, rfl⟩ := writeByte_eq_error he
      obtain rfl := eq_top_of_cells_le hle
      exact .inr ⟨rfl, hr⟩

/-- All that executing an instruction can do. -/
inductive ExecCase (i : Instr) (s : State) : State → Prop where
  | load (v : Byte) (h : i.operation = .loadAccumulator) :
      ExecCase i s (advance (executed (setAccumulator v (enterInstr i s))))
  | store (addr : Addr) (h : i.operation = .storeAccumulator) (ha : addr ≠ 0xFFFF) :
      ExecCase i s
        (advance (executed (setMemory (writeCell s.mem addr.toNat s.a) (enterInstr i s))))
  | tax (h : i = .tax) : ExecCase i s (advance (executed (setIndexX s.a (enterInstr i s))))
  | tay (h : i = .tay) : ExecCase i s (advance (executed (setIndexY s.a (enterInstr i s))))
  | inx (h : i = .inx) : ExecCase i s (advance (executed (setIndexX (s.x + 1) (enterInstr i s))))
  | iny (h : i = .iny) : ExecCase i s (advance (executed (setIndexY (s.y + 1) (enterInstr i s))))
  | halt (h : i = .brk) : ExecCase i s (halted (enterInstr i s))
  | fault (h : i.operation = .loadAccumulator ∨ i.operation = .storeAccumulator) :
      ExecCase i s (raise (.memoryRangeFault 0xFFFF) (enterInstr i s))

theorem runLoad_execCase {i : Instr} (hi : i.operation = .loadAccumulator)
    {ea : State → Except FatalError Addr} {s : State} (h : ∃ addr, ea (enterInstr i s) = .ok addr) :
    ∃ t, runLoad i ea s = .next t ∧ ExecCase i s t := by
  obtain ⟨addr, h⟩ := h
  rcases runLoad_ok h with ⟨-, h⟩ | ⟨-, h⟩
  · exact ⟨_, h, .load _ hi⟩
  · exact ⟨_, h, .fault (.inl hi)⟩

theorem runStore_execCase {i : Instr} (hi : i.operation = .storeAccumulator)
    {ea : State → Except FatalError Addr} {s : State} (h : ∃ addr, ea (enterInstr i s) = .ok addr) :
    ∃ t, runStore i ea s = .next t ∧ ExecCase i s t := by
  obtain ⟨addr, h⟩ := h
  rcases runStore_ok h with ⟨ha, h⟩ | ⟨-, h⟩
  · exact ⟨_, h, .store _ hi ha⟩
  · exact ⟨_, h, .fault (.inr hi)⟩

/-- Executing an instruction answers a next state, by one of the cases. -/
theorem exec_cases (i : Instr) (s : State) : ∃ t, exec i s = .next t ∧ ExecCase i s t := by
  cases i with
  | brk => exact ⟨_, rfl, .halt rfl⟩
  | staIzx d8 => exact runStore_execCase rfl (eaIzx_hardware _ _)
  | staZp d8 =>
    exact runStore_execCase (i := .staZp d8) rfl (ea := fun _ => .ok (eaZp d8)) ⟨_, rfl⟩
  | staAbs a16 =>
    exact runStore_execCase (i := .staAbs a16) rfl (ea := fun _ => .ok a16) ⟨_, rfl⟩
  | staIzy d8 => exact runStore_execCase rfl (eaIzy_hardware _ _)
  | staZpx d8 =>
    exact runStore_execCase (i := .staZpx d8) rfl (ea := fun t => .ok (eaZpIndexed d8 t.x)) ⟨_, rfl⟩
  | staAby a16 =>
    exact runStore_execCase (i := .staAby a16) rfl (ea := fun t => .ok (eaAbsIndexed a16 t.y)) ⟨_, rfl⟩
  | staAbx a16 =>
    exact runStore_execCase (i := .staAbx a16) rfl (ea := fun t => .ok (eaAbsIndexed a16 t.x)) ⟨_, rfl⟩
  | ldaIzx d8 => exact runLoad_execCase rfl (eaIzx_hardware _ _)
  | ldaZp d8 =>
    exact runLoad_execCase (i := .ldaZp d8) rfl (ea := fun _ => .ok (eaZp d8)) ⟨_, rfl⟩
  | tay => exact ⟨_, rfl, .tay rfl⟩
  | ldaImm d8 => exact ⟨_, rfl, .load _ rfl⟩
  | tax => exact ⟨_, rfl, .tax rfl⟩
  | ldaAbs a16 =>
    exact runLoad_execCase (i := .ldaAbs a16) rfl (ea := fun _ => .ok a16) ⟨_, rfl⟩
  | ldaIzy d8 => exact runLoad_execCase rfl (eaIzy_hardware _ _)
  | ldaZpx d8 =>
    exact runLoad_execCase (i := .ldaZpx d8) rfl (ea := fun t => .ok (eaZpIndexed d8 t.x)) ⟨_, rfl⟩
  | ldaAby a16 =>
    exact runLoad_execCase (i := .ldaAby a16) rfl (ea := fun t => .ok (eaAbsIndexed a16 t.y)) ⟨_, rfl⟩
  | ldaAbx a16 =>
    exact runLoad_execCase (i := .ldaAbx a16) rfl (ea := fun t => .ok (eaAbsIndexed a16 t.x)) ⟨_, rfl⟩
  | iny => exact ⟨_, rfl, .iny rfl⟩
  | inx => exact ⟨_, rfl, .inx rfl⟩

/-- The inversion of `exec`. -/
theorem execCase_of_exec {i : Instr} {s t : State} (h : exec i s = .next t) : ExecCase i s t := by
  obtain ⟨t', h', hc⟩ := exec_cases i s
  rw [h] at h'
  cases h'
  exact hc

/-- Inside an instruction the opcode byte on record is the instruction's (60_exceptions.md R130). -/
@[simp] theorem recordedOpcode_enterInstr (i : Instr) (s : State) :
    recordedOpcode (enterInstr i s) = i.opcode := by
  simp [recordedOpcode]

/-- The record of an access that faults inside an instruction (60_exceptions.md R127, R130). -/
@[simp] theorem faultRecord_enterInstr (addr : Addr) (i : Instr) (s : State) :
    faultRecord (.memoryRangeFault addr) (enterInstr i s) =
      .memoryRangeFault addr s.pc i.opcode := by
  simp [faultRecord]

/-! ### What lies outside the operation is the same for every instruction -/

/-- Operand bytes and the opcode make up the length. -/
theorem operands_add_one (l : InstrLen) : l.operands + 1 = l.toNat := by cases l <;> rfl

/-- PC past the operand bytes is PC past the instruction. -/
theorem pc_add_operands (pc : Addr) (l : InstrLen) :
    pc + 1 + BitVec.ofNat 16 l.operands = pc + BitVec.ofNat 16 l.toNat := by
  rw [BitVec.add_assoc]
  cases l <;> rfl

/-- The program counter after an instruction that went on to Advancing. -/
theorem advance_pc_of_dispatched {t : State} {pc : Addr} (h : t.pc = pc + 1)
    (hd : t.preDispatchPC = pc + 1) :
    (advance t).pc = pc + BitVec.ofNat 16 t.len.toNat := by
  rw [advance_pc, if_pos (h.trans hd.symm), h, pc_add_operands]

end Sys2Proof.Machine
end

