-- ==== Sys2Proof/Laws/Flags.lean ====
section
/-!
SUPPORT. What each flag update does to every bit of the status byte.
-/

namespace Sys2Proof.Machine

/-- `updateZeroFlag` writes bit 1 and keeps every other bit (10_state.md R24). -/
theorem updateZeroFlag_getLsbD (p r : Byte) (i : Nat) :
    (updateZeroFlag p r).getLsbD i = if i = 1 then decide (r = 0) else p.getLsbD i := by
  by_cases hi : i < 8
  · unfold updateZeroFlag
    by_cases hr : r = 0
    · rw [if_pos hr]
      interval_cases i <;> simp [hr]
    · rw [if_neg hr]
      interval_cases i <;> simp [show ¬ r = 0#8 from hr]
  · rw [BitVec.getLsbD_of_ge _ i (by omega), BitVec.getLsbD_of_ge p i (by omega),
      if_neg (by omega)]

/-- `updateNegativeFlag` writes bit 7 and keeps every other bit (10_state.md R25). -/
theorem updateNegativeFlag_getLsbD (p r : Byte) (i : Nat) :
    (updateNegativeFlag p r).getLsbD i = if i = 7 then r.getLsbD 7 else p.getLsbD i := by
  by_cases hi : i < 8
  · unfold updateNegativeFlag
    cases hr : r.getLsbD 7
    · rw [if_neg (by simp)]
      interval_cases i <;> simp
    · rw [if_pos rfl]
      interval_cases i <;> simp
  · rw [BitVec.getLsbD_of_ge _ i (by omega), BitVec.getLsbD_of_ge p i (by omega),
      if_neg (by omega)]

/-- `setZN` writes bits 1 and 7 and keeps every other bit (42_transfer_increment.md R100). -/
theorem setZN_getLsbD (p r : Byte) (i : Nat) :
    (setZN p r).getLsbD i =
      if i = 7 then r.getLsbD 7 else if i = 1 then decide (r = 0) else p.getLsbD i := by
  rw [setZN, updateNegativeFlag_getLsbD, updateZeroFlag_getLsbD]

end Sys2Proof.Machine
end

