-- ==== Sys2Proof/Laws/PerInstr.lean ====
section
/-!
SUPPORT. Statements about every instruction as syntax, one lemma per constructor.
-/

namespace Sys2Proof.Laws

/-- Each instruction has its own row in the opcode map: it is well-formed, and its encoding is as
long as its row's format says (30_encoding.md R53, R58, R60). -/
def TableRow.Statement (i : Instr) : Prop :=
  i.wf = true ∧ (encode i).length = i.len.toNat ∧
    rowOf i.opcode = some ⟨i.opcode, i.operation, i.mode, i.len⟩

theorem TableRow.brk : TableRow.Statement .brk := ⟨rfl, rfl, rfl⟩
theorem TableRow.staIzx (d8 : Byte) : TableRow.Statement (.staIzx d8) := ⟨rfl, rfl, rfl⟩
theorem TableRow.staZp (d8 : Byte) : TableRow.Statement (.staZp d8) := ⟨rfl, rfl, rfl⟩
theorem TableRow.staAbs (a16 : Addr) : TableRow.Statement (.staAbs a16) := ⟨rfl, rfl, rfl⟩
theorem TableRow.staIzy (d8 : Byte) : TableRow.Statement (.staIzy d8) := ⟨rfl, rfl, rfl⟩
theorem TableRow.staZpx (d8 : Byte) : TableRow.Statement (.staZpx d8) := ⟨rfl, rfl, rfl⟩
theorem TableRow.staAby (a16 : Addr) : TableRow.Statement (.staAby a16) := ⟨rfl, rfl, rfl⟩
theorem TableRow.staAbx (a16 : Addr) : TableRow.Statement (.staAbx a16) := ⟨rfl, rfl, rfl⟩
theorem TableRow.ldaIzx (d8 : Byte) : TableRow.Statement (.ldaIzx d8) := ⟨rfl, rfl, rfl⟩
theorem TableRow.ldaZp (d8 : Byte) : TableRow.Statement (.ldaZp d8) := ⟨rfl, rfl, rfl⟩
theorem TableRow.tay : TableRow.Statement .tay := ⟨rfl, rfl, rfl⟩
theorem TableRow.ldaImm (d8 : Byte) : TableRow.Statement (.ldaImm d8) := ⟨rfl, rfl, rfl⟩
theorem TableRow.tax : TableRow.Statement .tax := ⟨rfl, rfl, rfl⟩
theorem TableRow.ldaAbs (a16 : Addr) : TableRow.Statement (.ldaAbs a16) := ⟨rfl, rfl, rfl⟩
theorem TableRow.ldaIzy (d8 : Byte) : TableRow.Statement (.ldaIzy d8) := ⟨rfl, rfl, rfl⟩
theorem TableRow.ldaZpx (d8 : Byte) : TableRow.Statement (.ldaZpx d8) := ⟨rfl, rfl, rfl⟩
theorem TableRow.ldaAby (a16 : Addr) : TableRow.Statement (.ldaAby a16) := ⟨rfl, rfl, rfl⟩
theorem TableRow.ldaAbx (a16 : Addr) : TableRow.Statement (.ldaAbx a16) := ⟨rfl, rfl, rfl⟩
theorem TableRow.iny : TableRow.Statement .iny := ⟨rfl, rfl, rfl⟩
theorem TableRow.inx : TableRow.Statement .inx := ⟨rfl, rfl, rfl⟩

end Sys2Proof.Laws
end

