-- ==== Sys2Proof/Laws/Step.lean ====
section
/-!
SUPPORT. Said once: what fetching an instruction and what a step can do.
-/

namespace Sys2Proof.Machine

/-- All that fetching the instruction at PC can answer. -/
inductive FetchCase (s : State) : Except State Instr → Prop where
  | opcodeFault (hpc : s.pc = 0xFFFF) :
      FetchCase s (.error (raise (.memoryRangeFault 0xFFFF) { s with opaddr := s.pc }))
  | unsupported (b : Byte) (hb : readByte hardware s.mem s.pc = .ok b) (hr : rowOf b = none) :
      FetchCase s (.error (raise .unsupportedOpcode (fetched b s)))
  | operandFault (r : OpcodeRow) (hb : readByte hardware s.mem s.pc = .ok r.opcode)
      (hr : rowOf r.opcode = some r) (hl : 65535 < s.pc.toNat + r.len.toNat) :
      FetchCase s (.error (raise (.memoryRangeFault 0xFFFF) (enter r.opcode ⟨r.mode, r.len⟩ s)))
  | ok (i : Instr) (hb : readBytes hardware s.mem s.pc i.len.toNat = .ok (encode i))
      (hl : s.pc.toNat + i.len.toNat ≤ 65535) : FetchCase s (.ok i)

/-- Reading `n` bytes answers them all, or the run of addresses passes the top of memory. -/
theorem readBytes_cases (m : Memory) (n : Nat) : ∀ addr : Addr, addr.toNat ≤ 65535 →
    (addr.toNat + n ≤ 65535 ∧ ∃ bs, readBytes hardware m addr n = .ok bs ∧ bs.length = n) ∨
    (65535 < addr.toNat + n ∧ readBytes hardware m addr n = .error (.memoryRangeFault 0xFFFF)) := by
  induction n with
  | zero => exact fun addr h => .inl ⟨by omega, [], rfl, rfl⟩
  | succ n ih =>
    intro addr h
    by_cases hlt : addr.toNat < 65535
    · have hs : (addr + 1).toNat = addr.toNat + 1 := by
        rw [BitVec.toNat_add]
        simp
        omega
      have hb : readByte hardware m addr = .ok (readCell m addr.toNat) :=
        readByte_of_lt (by simpa using hlt)
      rcases ih (addr + 1) (by omega) with ⟨hle, bs, h1, h2⟩ | ⟨hgt, h1⟩
      · refine .inl ⟨by omega, readCell m addr.toNat :: bs, ?_, by simp [h2]⟩
        simp only [readBytes, hb, h1]
      · refine .inr ⟨by omega, ?_⟩
        simp only [readBytes, hb, h1]
    · have hle : hardware.memSize.cells ≤ addr.toNat := by simp; omega
      refine .inr ⟨by omega, ?_⟩
      rw [readBytes, readByte_of_le hle, eq_top_of_cells_le hle]

/-- The operand bytes of a row assemble to the instruction of that row, and are its operand bytes. -/
theorem assemble_row : ∀ r ∈ opcodeRows, ∀ bs : List Byte, bs.length = r.len.operands →
    ∃ i : Instr, assemble r.operation r.mode bs = .ok (i, []) ∧ i.opcode = r.opcode ∧
      i.len = r.len ∧ i.mode = r.mode ∧ i.operation = r.operation ∧ i.operandBytes = bs := by
  have h0 : ∀ bs : List Byte, bs.length = 0 → bs = [] := fun bs h => List.length_eq_zero_iff.mp h
  have h1 : ∀ bs : List Byte, bs.length = 1 → ∃ a, bs = [a] := fun bs h =>
    List.length_eq_one_iff.mp h
  have h2 : ∀ bs : List Byte, bs.length = 2 → ∃ a b, bs = [a, b] := fun bs h =>
    List.length_eq_two.mp h
  intro r hr bs hbs
  simp only [opcodeRows, List.cons_append, List.nil_append, List.mem_cons, List.not_mem_nil,
    or_false] at hr
  rcases hr with rfl | rfl | rfl | rfl | rfl | rfl | rfl | rfl | rfl | rfl | rfl | rfl | rfl | rfl |
    rfl | rfl | rfl | rfl | rfl | rfl
  all_goals first
    | (obtain rfl := h0 bs hbs; exact ⟨_, rfl, rfl, rfl, rfl, rfl, rfl⟩)
    | (obtain ⟨a, rfl⟩ := h1 bs hbs; exact ⟨_, rfl, rfl, rfl, rfl, rfl, rfl⟩)
    | (obtain ⟨a, b, rfl⟩ := h2 bs hbs
       exact ⟨_, rfl, rfl, rfl, rfl, rfl, by simp [Instr.operandBytes]⟩)

/-- Fetching answers one of the cases. -/
theorem fetchInstr_cases (s : State) : FetchCase s (fetchInstr s) := by
  unfold fetchInstr
  cases hb : readByte hardware s.mem s.pc with
  | error e =>
    obtain ⟨hle, rfl⟩ := readByte_eq_error hb
    have := eq_top_of_cells_le hle
    simpa only [this] using FetchCase.opcodeFault this
  | ok op =>
    have hpc : s.pc.toNat < 65535 := by simpa using (readByte_eq_ok hb).1
    simp only [hardware_optable, hardware_opsel]
    cases hr : rowOf op with
    | none => exact .unsupported op hb hr
    | some r =>
      obtain ⟨hmem, rfl⟩ := rowOf_eq_some hr
      have hs : (s.pc + 1).toNat = s.pc.toNat + 1 := by
        rw [BitVec.toNat_add]
        simp
        omega
      simp only [Option.map_some]
      rcases readBytes_cases s.mem r.len.operands (s.pc + 1) (by omega) with
        ⟨hle, bs, h, hlen⟩ | ⟨hgt, h⟩
      · obtain ⟨i, ha, hop, hl, -, -, hob⟩ := assemble_row r hmem bs hlen
        have hd : decode (r.opcode :: bs) = .ok (i, []) := by simp only [decode, hr, ha]
        simp only [h, hd]
        have hn := operands_add_one r.len
        refine .ok i ?_ (by rw [hl]; omega)
        rw [hl, ← hn, readBytes, hb]
        simp only [h, encode, hop, hob]
      · simp only [h]
        have hn := operands_add_one r.len
        exact .operandFault r hb hr (by omega)

/-- A step at Fetching, by what fetching the instruction answers. -/
theorem step_of_fetchInstr_error {s t : State} (hs : s.runState = .fetching)
    (h : fetchInstr s = .error t) : step s = .next t := by
  simp only [step, hs, h]

theorem step_of_fetchInstr_ok {s : State} {i : Instr} (hs : s.runState = .fetching)
    (h : fetchInstr s = .ok i) : step s = exec i s := by
  simp only [step, hs, h]

/-- All that a step can do: nothing at the end of a run, the sequencer's own step inside an
instruction, and at Fetching what fetching and `exec` can. -/
theorem step_cases (s : State) :
    ((s.runState = .halted ∨ s.runState = .faulted) ∧ step s = .next s) ∨
    ((s.runState = .decoding ∨ s.runState = .executing ∨ s.runState = .advancing) ∧
      step s = .next (sequencerStep hardware s)) ∨
    (s.runState = .fetching ∧
      ((∃ t, FetchCase s (.error t) ∧ step s = .next t) ∨
       (∃ i, FetchCase s (.ok i) ∧ step s = exec i s))) := by
  have hf := fetchInstr_cases s
  unfold step
  cases hs : s.runState with
  | fetching =>
    refine .inr (.inr ⟨rfl, ?_⟩)
    cases h : fetchInstr s with
    | error t => exact .inl ⟨t, h ▸ hf, rfl⟩
    | ok i => exact .inr ⟨i, h ▸ hf, rfl⟩
  | decoding => exact .inr (.inl ⟨.inl rfl, rfl⟩)
  | executing => exact .inr (.inl ⟨.inr (.inl rfl), rfl⟩)
  | advancing => exact .inr (.inl ⟨.inr (.inr rfl), rfl⟩)
  | halted => exact .inl ⟨.inl rfl, rfl⟩
  | faulted => exact .inl ⟨.inr rfl, rfl⟩

end Sys2Proof.Machine
end

