-- ==== Sys2Proof/Laws/Sequencer.lean ====
section
/-!
SUPPORT. Said once: what an operation can do for any parameters and any tag, what a phase can do, and
that what every phase keeps a step of the sequencer and a run of it keep.
-/

namespace Sys2Proof.Machine

/-- An error of the resolver: no tag of its own, or a byte access that is no cell. -/
theorem effectiveAddress_eq_error {k : Params} {mode : AddrMode} {s : State} {e : FatalError}
    (h : effectiveAddress k mode s = .error e) :
    (mode = .none ∧ e = .invalidAddressingModeUse) ∨
    (mode ≠ .none ∧ ∃ addr : Addr, k.memSize.cells ≤ addr.toNat ∧ e = .memoryRangeFault addr) := by
  have hb : ∀ {addr : Addr}, readByte k s.mem addr = .error e →
      ∃ addr : Addr, k.memSize.cells ≤ addr.toNat ∧ e = .memoryRangeFault addr :=
    fun h => ⟨_, readByte_eq_error h⟩
  have hw : ∀ {addr : Addr}, readWord k s.mem addr = .error e →
      ∃ addr : Addr, k.memSize.cells ≤ addr.toNat ∧ e = .memoryRangeFault addr :=
    fun h => (readWord_eq_error h).elim hb hb
  have hz : ∀ {p : Byte}, zpWord k s.mem p = .error e →
      ∃ addr : Addr, k.memSize.cells ≤ addr.toNat ∧ e = .memoryRangeFault addr := by
    intro p h
    unfold zpWord at h
    split at h
    · simp at h
    · exact hw h
  cases mode <;> simp only [effectiveAddress, withOperandByte, withOperandWord, eaIzx, eaIzy] at h
  case imm => cases h
  case none => cases h; exact .inl ⟨rfl, rfl⟩
  all_goals
    refine .inr ⟨AddrMode.noConfusion, ?_⟩
    split at h
    · rename_i hr
      cases h
      first | exact hb hr | exact hw hr
    · first
        | cases h
        | exact hz h
        | (split at h
           · rename_i hr
             cases h
             exact hz hr
           · cases h)

/-- All that an operation can do: complete in one of five ways, or fail as a load or store. -/
inductive PerformCase (k : Params) (o : Operation) (mode : AddrMode) (s : State) :
    Except FatalError State → Prop where
  | load (v : Byte) (h : o = .loadAccumulator) (hm : mode ≠ .none) :
      PerformCase k o mode s (.ok (executed (setAccumulator v s)))
  | store (addr : Addr) (h : o = .storeAccumulator) (hm : mode ≠ .none)
      (ha : addr.toNat < k.memSize.cells) :
      PerformCase k o mode s (.ok (executed (setMemory (writeCell s.mem addr.toNat s.a) s)))
  | setX (v : Byte) (h : o = .transferAccumulatorToX ∨ o = .incrementX) :
      PerformCase k o mode s (.ok (executed (setIndexX v s)))
  | setY (v : Byte) (h : o = .transferAccumulatorToY ∨ o = .incrementY) :
      PerformCase k o mode s (.ok (executed (setIndexY v s)))
  | halt (h : o = .halt) : PerformCase k o mode s (.ok (halted s))
  | noMode (h : o = .loadAccumulator ∨ o = .storeAccumulator) (hm : mode = .none) :
      PerformCase k o mode s (.error .invalidAddressingModeUse)
  | range (addr : Addr) (h : o = .loadAccumulator ∨ o = .storeAccumulator) (hm : mode ≠ .none)
      (ha : k.memSize.cells ≤ addr.toNat) :
      PerformCase k o mode s (.error (.memoryRangeFault addr))

/-- An operation does one of these. -/
theorem perform_cases (k : Params) (o : Operation) (mode : AddrMode) (s : State) :
    PerformCase k o mode s (perform k o mode s) := by
  have hne : ∀ {ea}, effectiveAddress k mode s = .ok ea → mode ≠ .none := by
    rintro ea h rfl
    cases h
  have herr : ∀ {e}, o = .loadAccumulator ∨ o = .storeAccumulator →
      effectiveAddress k mode s = .error e → PerformCase k o mode s (.error e) := by
    intro e ho h
    rcases effectiveAddress_eq_error h with ⟨hm, rfl⟩ | ⟨hm, addr, ha, rfl⟩
    · exact .noMode ho hm
    · exact .range addr ho hm ha
  cases o with
  | loadAccumulator =>
    simp only [perform, loadAccumulator]
    cases h : effectiveAddress k mode s with
    | error e => exact herr (.inl rfl) h
    | ok ea =>
      simp only [atAddress, loadFrom]
      cases hr : readByte k s.mem ea with
      | error e =>
        obtain ⟨ha, rfl⟩ := readByte_eq_error hr
        exact .range ea (.inl rfl) (hne h) ha
      | ok v => exact .load v rfl (hne h)
  | storeAccumulator =>
    simp only [perform, storeAccumulator]
    cases h : effectiveAddress k mode s with
    | error e => exact herr (.inr rfl) h
    | ok ea =>
      simp only [atAddress, storeTo]
      cases hr : writeByte k s.mem ea s.a with
      | error e =>
        obtain ⟨ha, rfl⟩ := writeByte_eq_error hr
        exact .range ea (.inr rfl) (hne h) ha
      | ok m =>
        obtain ⟨ha, rfl⟩ := writeByte_eq_ok hr
        exact .store ea rfl (hne h) ha
  | transferAccumulatorToX => exact .setX s.a (.inl rfl)
  | transferAccumulatorToY => exact .setY s.a (.inl rfl)
  | incrementX => exact .setX (s.x + 1) (.inr rfl)
  | incrementY => exact .setY (s.y + 1) (.inr rfl)
  | halt => exact .halt rfl

/-- All that a phase can do. -/
inductive PhaseCase (k : Params) (s : State) : State → Prop where
  | idle (h : s.runState = .halted ∨ s.runState = .faulted) : PhaseCase k s s
  | fetch (b : Byte) (h : s.runState = .fetching) (hb : readByte k s.mem s.pc = .ok b) :
      PhaseCase k s (fetched b s)
  | fetchFault (h : s.runState = .fetching) (ha : k.memSize.cells ≤ s.pc.toNat) :
      PhaseCase k s (raise (.memoryRangeFault s.pc) { s with opaddr := s.pc })
  | decode (d : Descriptor) (h : s.runState = .decoding) (hd : k.optable s.op = some d) :
      PhaseCase k s (decoded d s)
  | noDescriptor (h : s.runState = .decoding) (hd : k.optable s.op = none) :
      PhaseCase k s (raise .unsupportedOpcode s)
  | noOperation (h : s.runState = .executing) (ho : k.opsel s.op = none) :
      PhaseCase k s (raise .unsupportedOpcode (dispatched s))
  | execute (o : Operation) (t : State) (h : s.runState = .executing) (ho : k.opsel s.op = some o)
      (hp : PerformCase k o s.mode (dispatched s) (.ok t)) : PhaseCase k s t
  | executeFault (o : Operation) (e : FatalError) (h : s.runState = .executing)
      (ho : k.opsel s.op = some o) (hp : PerformCase k o s.mode (dispatched s) (.error e)) :
      PhaseCase k s (raise e (dispatched s))
  | advance (h : s.runState = .advancing) : PhaseCase k s (advance s)

/-- A phase does one of these. -/
theorem phase_cases (k : Params) (s : State) : PhaseCase k s (phase k s) := by
  unfold phase
  cases h : s.runState with
  | fetching =>
    simp only [fetchPhase]
    cases hb : readByte k s.mem s.pc with
    | error e =>
      obtain ⟨ha, rfl⟩ := readByte_eq_error hb
      exact .fetchFault h ha
    | ok b => exact .fetch b h hb
  | decoding =>
    simp only [decodePhase]
    cases hd : k.optable s.op with
    | none => exact .noDescriptor h hd
    | some d => exact .decode d h hd
  | executing =>
    simp only [executePhase]
    cases ho : k.opsel s.op with
    | none => exact .noOperation h ho
    | some o =>
      have hp := perform_cases k o s.mode (dispatched s)
      simp only
      cases hr : perform k o s.mode (dispatched s) with
      | error e => exact .executeFault o e h ho (hr ▸ hp)
      | ok t => exact .execute o t h ho (hr ▸ hp)
  | advancing => exact .advance h
  | halted => exact .idle (.inl h)
  | faulted => exact .idle (.inr h)

/-- What every phase keeps, the run up to the next boundary keeps. -/
theorem toBoundary_keeps {k : Params} {Q : State → Prop}
    (h : ∀ s t, PhaseCase k s t → Q s → Q t) (n : Nat) : ∀ s, Q s → Q (toBoundary k n s) := by
  induction n with
  | zero => exact fun s hs => hs
  | succ n ih =>
    intro s hs
    rw [toBoundary]
    split
    all_goals first | exact ih _ (h s _ (phase_cases k s) hs) | exact hs

/-- What every phase keeps, a step of the sequencer keeps. -/
theorem sequencerStep_keeps {k : Params} {Q : State → Prop}
    (h : ∀ s t, PhaseCase k s t → Q s → Q t) (s : State) (hs : Q s) : Q (sequencerStep k s) :=
  toBoundary_keeps h 3 _ (h s _ (phase_cases k s) hs)

/-- A run of the sequencer stays where it is anywhere but at Fetching. -/
theorem sequencerRun_of_not_fetching {s : State} (h : s.runState ≠ .fetching) (k : Params) (n : Nat) :
    sequencerRun k n s = s := by
  cases n with
  | zero => rfl
  | succ n => rw [sequencerRun, if_neg h]

end Sys2Proof.Machine
end

