-- ==== Sys2Proof/Tests/Slice0.lean ====
section
/-!
SUPPORT. The model's own tests. Expected results are from 95_test_vectors.md (its ids are cited) and
from the encoding table 30_encoding.md R58; none is the model's own answer. Then, for each obligation
with hypotheses, a witness that meets them, one for each clause and at the ends of its range.
-/

namespace Sys2Proof.Tests

open Sys2Proof.Machine

/-! ### Helpers -/

/-- Memory holding the given bytes and nothing else. -/
def cells (l : List (Nat × Byte)) : Memory := l.foldl (fun m c => writeCell m c.1 c.2) []

/-- A state at an instruction boundary. -/
def start (pc : Addr) (a x y p : Byte) (l : List (Nat × Byte)) : State :=
  { State.reset with pc := pc, a := a, x := x, y := y, p := p, mem := cells l }

/-- The next state, when there is one. -/
def nextOf : Host.Outcome State Fault Refusal → Option State
  | .next t => some t
  | .fault _ => none
  | .refused _ => none

/-- What the host sees of the next state. -/
def seen (o : Host.Outcome State Fault Refusal) : Option Inspection := (nextOf o).map inspect

/-- One cell of the next state. -/
def cellOf (o : Host.Outcome State Fault Refusal) (n : Nat) : Option Byte :=
  (nextOf o).map (fun t => readCell t.mem n)

/-- This hardware with a pointer that wraps inside the zero page (00_scope.md R8). -/
def wrapping : Params := { hardware with zpPtrWrap := true }

/-- This hardware with a cell at 0xFFFF (00_scope.md R8). -/
def fullSize : Params := { hardware with memSize := .cells65536 }

/-- The replacement table of 95_test_vectors.md 2.6, 0xA9 paired with NONE: not well-formed. -/
def noModeTable : Params :=
  { hardware with
    optable := fun op => if op = 0xA9 then some ⟨.none, .one⟩ else defaultOptable op }

/-- A table whose 0xAA has the wrong length. -/
def wrongLengthTable : Params :=
  { hardware with
    optable := fun op => if op = 0xAA then some ⟨.none, .two⟩ else defaultOptable op }

/-- A table that gives Increment-X a tag. -/
def tagOnIncrementTable : Params :=
  { hardware with
    optable := fun op => if op = 0xE8 then some ⟨.zp, .two⟩ else defaultOptable op }

/-- A table that makes the store 0x85 immediate. -/
def immediateStoreTable : Params :=
  { hardware with
    optable := fun op => if op = 0x85 then some ⟨.imm, .two⟩ else defaultOptable op }

/-- A table without an operation for 0xE8. -/
def noOperationTable : Params :=
  { hardware with opsel := fun op => if op = 0xE8 then none else defaultOpsel op }

/-! ### Decoding: a word of every row, written out from 30_encoding.md R58 and R54 -/

theorem test_decode_brk : decode [0b00000000] = .ok (.brk, []) := rfl
theorem test_decode_staIzx : decode [0b10000001, 0x50] = .ok (.staIzx 0x50, []) := rfl
theorem test_decode_staZp : decode [0b10000101, 0x40] = .ok (.staZp 0x40, []) := rfl
theorem test_decode_staAbs : decode [0b10001101, 0x00, 0x02] = .ok (.staAbs 0x0200, []) := rfl
theorem test_decode_staIzy : decode [0b10010001, 0x40] = .ok (.staIzy 0x40, []) := rfl
theorem test_decode_staZpx : decode [0b10010101, 0x81] = .ok (.staZpx 0x81, []) := rfl
theorem test_decode_staAby : decode [0b10011001, 0xF0, 0x12] = .ok (.staAby 0x12F0, []) := rfl
theorem test_decode_staAbx : decode [0b10011101, 0x80, 0x01] = .ok (.staAbx 0x0180, []) := rfl
theorem test_decode_ldaIzx : decode [0b10100001, 0x00] = .ok (.ldaIzx 0x00, []) := rfl
theorem test_decode_ldaZp : decode [0b10100101, 0x10] = .ok (.ldaZp 0x10, []) := rfl
theorem test_decode_tay : decode [0b10101000] = .ok (.tay, []) := rfl
theorem test_decode_ldaImm : decode [0b10101001, 0x05] = .ok (.ldaImm 0x05, []) := rfl
theorem test_decode_tax : decode [0b10101010] = .ok (.tax, []) := rfl
theorem test_decode_ldaAbs : decode [0b10101101, 0x34, 0x12] = .ok (.ldaAbs 0x1234, []) := rfl
theorem test_decode_ldaIzy : decode [0b10110001, 0x40] = .ok (.ldaIzy 0x40, []) := rfl
theorem test_decode_ldaZpx : decode [0b10110101, 0x80] = .ok (.ldaZpx 0x80, []) := rfl
theorem test_decode_ldaAby : decode [0b10111001, 0xFF, 0xFF] = .ok (.ldaAby 0xFFFF, []) := rfl
theorem test_decode_ldaAbx : decode [0b10111101, 0x7F, 0x01] = .ok (.ldaAbx 0x017F, []) := rfl
theorem test_decode_iny : decode [0b11001000] = .ok (.iny, []) := rfl
theorem test_decode_inx : decode [0b11101000] = .ok (.inx, []) := rfl

/-- U1, U3, U4, U5: bytes that other chips of the family decode and this one does not. -/
theorem test_decode_illegal :
    [0x02, 0xA2, 0xEA, 0x4C].map (fun b => decode [b, 0x01, 0x80]) =
      [0x02, 0xA2, 0xEA, 0x4C].map (fun b => .error (.unsupportedOpcode b)) := rfl

/-- Operand bytes missing. -/
theorem test_decode_truncated : decode [0xAD, 0x34] = .error .truncated := rfl

/-- The operand fields as spec/opcode_table.json numbers them. -/
theorem test_decode_table_word :
    decodeTableWord 24 0x1234AD = some (.ldaAbs 0x1234) ∧
      decodeTableWord 8 0xE8 = some .inx ∧ decodeTableWord 8 0xA9 = some (.ldaImm 0x00) :=
  ⟨rfl, rfl, rfl⟩

/-! ### WellFormed: an ill-formed term for each check (30_encoding.md R60) -/

theorem test_wf_length_refused :
    lenFitsMode .abs .two = false ∧ lenFitsMode .none .two = false ∧
      lenFitsMode .imm .one = false ∧ lenFitsMode .zp .three = false := by decide

theorem test_wf_load_without_tag_refused : modeFitsOperation .loadAccumulator .none = false ∧
    modeFitsOperation .storeAccumulator .none = false := by decide

theorem test_wf_tag_without_use_refused :
    modeFitsOperation .halt .zp = false ∧ modeFitsOperation .transferAccumulatorToX .imm = false ∧
      modeFitsOperation .transferAccumulatorToY .abs = false ∧
      modeFitsOperation .incrementX .zpx = false ∧ modeFitsOperation .incrementY .izy = false := by
  decide

theorem test_wf_pair_refused : pairWf .loadAccumulator .zp .three = false ∧
    pairWf .loadAccumulator .none .one = false := by decide

/-- D17 and U12: a store has no immediate form; a load has, and both may have ZPY (R99). -/
theorem test_wf_store_immediate_refused : pairWf .storeAccumulator .imm .two = false ∧
    pairWf .loadAccumulator .imm .two = true ∧ pairWf .storeAccumulator .zpy .two = true ∧
    pairWf .loadAccumulator .zpy .two = true := by decide

theorem test_wf_tables_refused : wrongLengthTable.byteWf 0xAA = false ∧
    noModeTable.byteWf 0xA9 = false ∧ tagOnIncrementTable.byteWf 0xE8 = false ∧
    immediateStoreTable.byteWf 0x85 = false := by decide

theorem test_wf_check_refuses : noModeTable.check = false := by
  refine Bool.eq_false_iff.mpr fun h => ?_
  exact absurd ((check_iff_wellFormed _).mp h 0xA9 ⟨.none, .one⟩ .loadAccumulator rfl rfl) (by decide)

/-- No term of `Instr` is ill-formed: each constructor has its row, and operands have their width. -/
theorem test_wf_instr : (Instr.staAbx 0xFFFF).wf = true ∧ Instr.brk.wf = true := by decide

/-! ### Instructions: LDA (95_test_vectors.md 2.2) -/

theorem test_ldaImm_L1 :
    seen (step (start 0x0200 0x55 0 0 0x80 [(0x0200, 0xA9)])) =
      some ⟨0x00, 0, 0, 0x02, 0x0202, .fetching, none⟩ := by decide

theorem test_ldaImm_L4 :
    seen (step (start 0x0200 0x00 0 0 0x7D [(0x0200, 0xA9), (0x0201, 0xFF)])) =
      some ⟨0xFF, 0, 0, 0xFD, 0x0202, .fetching, none⟩ := by decide

theorem test_ldaZp_L5 :
    seen (step (start 0x0200 0 0 0 0 [(0x0200, 0xA5), (0x0201, 0x10), (0x10, 0x55)])) =
      some ⟨0x55, 0, 0, 0, 0x0202, .fetching, none⟩ := by decide

theorem test_ldaZp_L6 :
    seen (step (start 0x0200 0x11 0 0 0 [(0x0200, 0xA5), (0x0201, 0xFF)])) =
      some ⟨0x00, 0, 0, 0x02, 0x0202, .fetching, none⟩ := by decide

theorem test_ldaZpx_L8 :
    seen (step (start 0x0200 0 0x01 0 0
      [(0x0200, 0xB5), (0x0201, 0xFF), (0x0000, 0x9C), (0x0100, 0x11)])) =
      some ⟨0x9C, 0x01, 0, 0x80, 0x0202, .fetching, none⟩ := by decide

theorem test_ldaZpx_L9 :
    seen (step (start 0x0200 0 0xFF 0 0
      [(0x0200, 0xB5), (0x0201, 0x80), (0x007F, 0x01), (0x017F, 0x22)])) =
      some ⟨0x01, 0xFF, 0, 0x00, 0x0202, .fetching, none⟩ := by decide

theorem test_ldaAbs_L10 :
    seen (step (start 0x0200 0 0 0 0
      [(0x0200, 0xAD), (0x0201, 0x34), (0x0202, 0x12), (0x1234, 0xEE)])) =
      some ⟨0xEE, 0, 0, 0x80, 0x0203, .fetching, none⟩ := by decide

theorem test_ldaAbs_L12 :
    seen (step (start 0x0200 0x33 0 0 0x80 [(0x0200, 0xAD), (0x0201, 0xFF), (0x0202, 0xFF)])) =
      some ⟨0x33, 0, 0, 0x80, 0x0201, .faulted,
        some (.memoryRangeFault 0xFFFF 0x0200 0xAD)⟩ := by decide

theorem test_ldaAbx_L13 :
    seen (step (start 0x0200 0 0x20 0 0
      [(0x0200, 0xBD), (0x0201, 0xF0), (0x0202, 0x12), (0x1310, 0x44)])) =
      some ⟨0x44, 0x20, 0, 0, 0x0203, .fetching, none⟩ := by decide

theorem test_ldaAbx_L15 :
    seen (step (start 0x0200 0x01 0x01 0 0 [(0x0200, 0xBD), (0x0201, 0xFF), (0x0202, 0xFF)])) =
      some ⟨0x00, 0x01, 0, 0x02, 0x0203, .fetching, none⟩ := by decide

theorem test_ldaAby_L17 :
    seen (step (start 0x0200 0 0x99 0x20 0
      [(0x0200, 0xB9), (0x0201, 0xF0), (0x0202, 0x12), (0x1310, 0x44)])) =
      some ⟨0x44, 0x99, 0x20, 0, 0x0203, .fetching, none⟩ := by decide

theorem test_ldaAby_L18 :
    seen (step (start 0x0200 0 0 0xFF 0
      [(0x0200, 0xB9), (0x0201, 0xFF), (0x0202, 0xFF), (0x00FE, 0xF0)])) =
      some ⟨0xF0, 0, 0xFF, 0x80, 0x0203, .fetching, none⟩ := by decide

theorem test_ldaIzx_L20 :
    seen (step (start 0x0200 0 0x20 0 0
      [(0x0200, 0xA1), (0x0201, 0xF0), (0x0011, 0x30), (0x3000, 0xD0), (0x0110, 0xAA),
        (0x0111, 0xBB)])) =
      some ⟨0xD0, 0x20, 0, 0x80, 0x0202, .fetching, none⟩ := by decide

/-- Memory of L21 and L21w. -/
def memL21 : List (Nat × Byte) :=
  [(0x0200, 0xA1), (0x0201, 0xFF), (0x00FF, 0x34), (0x0100, 0x12), (0x0000, 0x56), (0x1234, 0xAA),
    (0x5634, 0xBB)]

theorem test_ldaIzx_L21 :
    seen (step (start 0x0200 0 0 0 0 memL21)) =
      some ⟨0xAA, 0, 0, 0x80, 0x0202, .fetching, none⟩ := by decide

theorem test_ldaIzx_L21w :
    inspect (sequencerStep wrapping (start 0x0200 0 0 0 0 memL21)) =
      ⟨0xBB, 0, 0, 0x80, 0x0202, .fetching, none⟩ := by decide

theorem test_ldaIzy_L22 :
    seen (step (start 0x0200 0 0 0x10 0
      [(0x0200, 0xB1), (0x0201, 0x40), (0x0040, 0xF8), (0x0041, 0x20), (0x2108, 0x3C)])) =
      some ⟨0x3C, 0, 0x10, 0, 0x0202, .fetching, none⟩ := by decide

theorem test_ldaIzy_L23 :
    seen (step (start 0x0200 0 0 0x02 0
      [(0x0200, 0xB1), (0x0201, 0x40), (0x0040, 0xFF), (0x0041, 0xFF), (0x0001, 0x99)])) =
      some ⟨0x99, 0, 0x02, 0x80, 0x0202, .fetching, none⟩ := by decide

theorem test_ldaIzy_L24w :
    inspect (sequencerStep wrapping (start 0x0200 0 0 0x02 0
      [(0x0200, 0xB1), (0x0201, 0xFF), (0x00FF, 0xFF), (0x0100, 0xFF), (0x0001, 0x99),
        (0x0101, 0x66)])) =
      ⟨0x66, 0, 0x02, 0, 0x0202, .fetching, none⟩ := by decide

/-! ### Instructions: STA (95_test_vectors.md 2.3) -/

theorem test_staZp_T2 :
    let o := step (start 0x0200 0xFF 0 0 0x02 [(0x0200, 0x85), (0x0201, 0x10)])
    cellOf o 0x0010 = some 0xFF ∧
      seen o = some ⟨0xFF, 0, 0, 0x02, 0x0202, .fetching, none⟩ := by decide

theorem test_staZp_T18 :
    let o := step (start 0x0000 0x99 0 0 0 [(0x0000, 0x85), (0x0001, 0x01)])
    cellOf o 0x0001 = some 0x99 ∧
      seen o = some ⟨0x99, 0, 0, 0, 0x0002, .fetching, none⟩ := by decide

theorem test_staZpx_T3 :
    let o := step (start 0x0200 0x5A 0x01 0 0 [(0x0200, 0x95), (0x0201, 0xFF), (0x0100, 0x77)])
    cellOf o 0x0000 = some 0x5A ∧ cellOf o 0x0100 = some 0x77 := by decide

theorem test_staAbs_T6 :
    let o := step (start 0x0200 0xC3 0 0 0 [(0x0200, 0x8D), (0x0201, 0xFE), (0x0202, 0xFF)])
    cellOf o 0xFFFE = some 0xC3 ∧
      seen o = some ⟨0xC3, 0, 0, 0, 0x0203, .fetching, none⟩ := by decide

theorem test_staAbs_T7 :
    seen (step (start 0x0200 0xC3 0 0 0 [(0x0200, 0x8D), (0x0201, 0xFF), (0x0202, 0xFF)])) =
      some ⟨0xC3, 0, 0, 0, 0x0201, .faulted,
        some (.memoryRangeFault 0xFFFF 0x0200 0x8D)⟩ := by decide

theorem test_staAbx_T8 :
    cellOf (step (start 0x0200 0x21 0x10 0 0 [(0x0200, 0x9D), (0x0201, 0xF0), (0x0202, 0xFF)])) 0 =
      some 0x21 := by decide

theorem test_staAbx_T10 :
    let o := step (start 0x0200 0x80 0x81 0 0 [(0x0200, 0x9D), (0x0201, 0x80), (0x0202, 0x01)])
    cellOf o 0x0201 = some 0x80 ∧
      seen o = some ⟨0x80, 0x81, 0, 0, 0x0203, .fetching, none⟩ := by decide

theorem test_staAby_T11 :
    cellOf (step (start 0x0200 0x21 0x77 0x20 0
      [(0x0200, 0x99), (0x0201, 0xF0), (0x0202, 0x12)])) 0x1310 = some 0x21 := by decide

theorem test_staAby_T12 :
    cellOf (step (start 0x0200 0x21 0 0x01 0
      [(0x0200, 0x99), (0x0201, 0xFF), (0x0202, 0xFF)])) 0x0000 = some 0x21 := by decide

theorem test_staIzx_T13 :
    cellOf (step (start 0x0200 0xC3 0xF0 0 0
      [(0x0200, 0x81), (0x0201, 0x50), (0x0041, 0x03)])) 0x0300 = some 0xC3 := by decide

theorem test_staIzx_T14w :
    let t := sequencerStep wrapping (start 0x0200 0x01 0 0 0
      [(0x0200, 0x81), (0x0201, 0xFF), (0x00FF, 0x34), (0x0100, 0x12), (0x0000, 0x56)])
    readCell t.mem 0x5634 = 0x01 ∧ readCell t.mem 0x1234 = 0x00 := by decide

theorem test_staIzy_T15 :
    cellOf (step (start 0x0200 0xC3 0 0x02 0
      [(0x0200, 0x91), (0x0201, 0x40), (0x0041, 0x03)])) 0x0302 = some 0xC3 := by decide

theorem test_staIzy_T19 :
    cellOf (step (start 0x0200 0xC3 0 0 0
      [(0x0200, 0x91), (0x0201, 0x40), (0x0040, 0x40)])) 0x0040 = some 0xC3 := by decide

/-! ### Instructions: transfers, increments, Halt (95_test_vectors.md 2.4 to 2.6) -/

theorem test_tax_X1 :
    seen (step (start 0x0200 0x00 0x33 0x44 0x80 [(0x0200, 0xAA)])) =
      some ⟨0x00, 0x00, 0x44, 0x02, 0x0201, .fetching, none⟩ := by decide

theorem test_tax_X5 :
    seen (step (start 0x0200 0xFF 0x33 0x44 0x7D [(0x0200, 0xAA)])) =
      some ⟨0xFF, 0xFF, 0x44, 0xFD, 0x0201, .fetching, none⟩ := by decide

theorem test_tay_X7 :
    seen (step (start 0x0200 0x01 0x33 0x44 0x82 [(0x0200, 0xA8)])) =
      some ⟨0x01, 0x33, 0x01, 0x00, 0x0201, .fetching, none⟩ := by decide

theorem test_tay_X9 :
    seen (step (start 0x0200 0x80 0x33 0x44 0x00 [(0x0200, 0xA8)])) =
      some ⟨0x80, 0x33, 0x80, 0x80, 0x0201, .fetching, none⟩ := by decide

theorem test_inx_I1 :
    seen (step (start 0x0200 0xA5 0xFF 0x44 0x80 [(0x0200, 0xE8)])) =
      some ⟨0xA5, 0x00, 0x44, 0x02, 0x0201, .fetching, none⟩ := by decide

theorem test_inx_I4 :
    seen (step (start 0x0200 0xA5 0x7F 0x44 0x00 [(0x0200, 0xE8)])) =
      some ⟨0xA5, 0x80, 0x44, 0x80, 0x0201, .fetching, none⟩ := by decide

theorem test_iny_I7 :
    seen (step (start 0x0200 0xA5 0x33 0xFF 0x80 [(0x0200, 0xC8)])) =
      some ⟨0xA5, 0x33, 0x00, 0x02, 0x0201, .fetching, none⟩ := by decide

theorem test_iny_I12 :
    seen (step (start 0x0200 0xA5 0x33 0xFE 0x7D [(0x0200, 0xC8)])) =
      some ⟨0xA5, 0x33, 0xFF, 0xFD, 0x0201, .fetching, none⟩ := by decide

theorem test_brk_H1 :
    seen (step (start 0x8002 0x01 0x02 0x03 0x82 [])) =
      some ⟨0x01, 0x02, 0x03, 0x82, 0x8003, .halted, none⟩ := by decide

theorem test_brk_H2 :
    seen (step (start 0xFFFE 0x01 0 0 0 [])) =
      some ⟨0x01, 0, 0, 0, 0xFFFF, .halted, none⟩ := by decide

/-! ### The top of memory and the errors (95_test_vectors.md 2.6) -/

theorem test_top_H3 :
    seen (step (start 0xFFFE 0 0 0 0 [(0xFFFE, 0xE8)])) =
      some ⟨0, 0x01, 0, 0, 0xFFFF, .fetching, none⟩ := by decide

/-- H4: of the opcode byte on record the vector says nothing, and it is a free value. -/
theorem test_top_H4 :
    ∃ op, seen (step (start 0xFFFF 0x09 0 0 0 [])) =
      some ⟨0x09, 0, 0, 0, 0xFFFF, .faulted, some (.memoryRangeFault 0xFFFF 0xFFFF op)⟩ := ⟨_, rfl⟩

theorem test_top_H5 :
    seen (step (start 0xFFFE 0x12 0 0 0x02 [(0xFFFE, 0xA9)])) =
      some ⟨0x12, 0, 0, 0x02, 0xFFFF, .faulted,
        some (.memoryRangeFault 0xFFFF 0xFFFE 0xA9)⟩ := by decide

theorem test_top_H6 :
    seen (step (start 0xFFFD 0x12 0 0 0 [(0xFFFD, 0xAD), (0xFFFE, 0x34)])) =
      some ⟨0x12, 0, 0, 0, 0xFFFE, .faulted,
        some (.memoryRangeFault 0xFFFF 0xFFFD 0xAD)⟩ := by decide

theorem test_top_H8 :
    seen (step (start 0xFFFD 0 0 0 0 [(0xFFFD, 0xA9), (0xFFFE, 0x80)])) =
      some ⟨0x80, 0, 0, 0x80, 0xFFFF, .fetching, none⟩ := by decide

theorem test_top_H9 :
    seen (step (start 0xFFFC 0 0 0 0 [(0xFFFC, 0xAD), (0xFFFE, 0x02), (0x0200, 0x01)])) =
      some ⟨0x01, 0, 0, 0, 0xFFFF, .fetching, none⟩ := by decide

theorem test_unsupported_U1 :
    seen (step (start 0x8003 0x05 0x05 0 0 [(0x8003, 0x02)])) =
      some ⟨0x05, 0x05, 0, 0, 0x8004, .faulted, some (.unsupportedOpcode 0x02 0x8003)⟩ := by decide

/-- U5: the operand bytes are not read. -/
theorem test_unsupported_U5 :
    seen (step (start 0x0200 0 0 0 0 [(0x0200, 0x4C), (0x0202, 0x80)])) =
      some ⟨0, 0, 0, 0, 0x0201, .faulted, some (.unsupportedOpcode 0x4C 0x0200)⟩ := by decide

/-- The vector for InvalidAddressingModeUse of 95_test_vectors.md 2.6. -/
theorem test_invalid_mode :
    inspect (sequencerStep noModeTable (start 0x0200 0x12 0 0 0x80 [(0x0200, 0xA9)])) =
      ⟨0x12, 0, 0, 0x80, 0x0201, .faulted, some (.invalidAddressingModeUse 0xA9 0x0200)⟩ := by decide

/-- R99: the generic rules let an immediate store write A over its own operand byte. -/
theorem test_immediate_store :
    let t := sequencerStep immediateStoreTable (start 0x0200 0xC3 0 0 0 [(0x0200, 0x85)])
    readCell t.mem 0x0201 = 0xC3 ∧ t.pc = 0x0202 := by decide

/-- The numeric codes of the errors (60_exceptions.md R125). -/
theorem test_fault_codes :
    [none, some (.unsupportedOpcode 2 0), some (.invalidAddressingModeUse 0xA9 0),
      some (.memoryRangeFault 0xFFFF 0 0xA9)].map faultCode = [0, 1, 2, 3] := rfl

/-! ### MEM_SIZE = 65536 (95_test_vectors.md 2.7) -/

theorem test_full_Z1 :
    inspect (sequencerStep fullSize (start 0x0200 0 0 0 0
      [(0x0200, 0xAD), (0x0201, 0xFF), (0x0202, 0xFF), (0xFFFF, 0x5A)])) =
      ⟨0x5A, 0, 0, 0, 0x0203, .fetching, none⟩ := by decide

theorem test_full_Z2 :
    inspect (sequencerStep fullSize (start 0xFFFF 0 0 0 0 [(0xFFFF, 0xE8)])) =
      ⟨0, 0x01, 0, 0, 0x0000, .fetching, none⟩ := by decide

theorem test_full_Z3 :
    inspect (sequencerStep fullSize (start 0xFFFF 0 0 0 0 [(0xFFFF, 0xA9), (0x0000, 0x81)])) =
      ⟨0x81, 0, 0, 0x80, 0x0001, .fetching, none⟩ := by decide

theorem test_full_Z4 :
    inspect (sequencerStep fullSize (start 0xFFFE 0 0 0 0
      [(0xFFFE, 0xAD), (0xFFFF, 0x10), (0x0000, 0x02), (0x0210, 0x31)])) =
      ⟨0x31, 0, 0, 0, 0x0001, .fetching, none⟩ := by decide

/-! ### Memory, reset, loading (95_test_vectors.md 2.1, 2.8) -/

theorem test_memory_M4_M8 :
    readWord hardware (cells [(0x00FF, 0x34), (0x0100, 0x12)]) 0x00FF = .ok 0x1234 ∧
      readWord hardware [] 0xFFFE = .error (.memoryRangeFault 0xFFFF) := ⟨rfl, rfl⟩

theorem test_memory_M7 :
    writeWord hardware [] 0xFFFE 0x1234 =
      ([(0xFFFE, 0x34)], some (.memoryRangeFault 0xFFFF)) := rfl

theorem test_memory_M12 :
    readWord fullSize (cells [(0xFFFF, 0xCD), (0x0000, 0xAB)]) 0xFFFF = .ok 0xABCD := rfl

/-- The other operand order of `cells`: an entry is put at its place, and a zero removes one. -/
theorem test_memory_canonical :
    cells [(3, 0x07), (1, 0x05), (2, 0x09), (2, 0x00)] = [(1, 0x05), (3, 0x07)] := rfl

theorem test_reset_RS1 :
    let s := { start 0x1234 0x12 0x34 0x56 0xFF [(0xFFFD, 0x80)] with runState := .halted }
    inspect (applyReset hardware s) = ⟨0x00, 0x00, 0x56, 0x00, 0x8000, .fetching, none⟩ := by decide

theorem test_reset_RS2 :
    let s := { start 0x8004 0x05 0x05 0x80 0x00 [(0xFFFC, 0x10), (0xFFFD, 0x80)] with
      runState := .faulted, fault := some (.unsupportedOpcode 0x02 0x8003) }
    inspect (applyReset hardware s) = ⟨0x00, 0x00, 0x80, 0x00, 0x8010, .fetching, none⟩ := by decide

theorem test_load_LD1 :
    nextOf (load hardware [0xA9, 0x05, 0x00] (start 0 1 2 3 4 [(0x8002, 0x77)])) =
      some (start 0 1 2 3 4 [(0x8000, 0xA9), (0x8001, 0x05), (0xFFFD, 0x80)]) := by decide

theorem test_load_LD5 :
    nextOf (load hardware [0x00] (start 0 0 0 0 0 [(0x8000, 0xE8), (0x8001, 0xC8)])) =
      some (start 0 0 0 0 0 [(0x8001, 0xC8), (0xFFFD, 0x80)]) := by decide

/-! ### Witnesses: the hypotheses of each obligation can be met, clause by clause -/

/-! #### Memory -/

/-- ByteWriteChangesOneCell: both clauses at the edge, for both memory sizes. -/
theorem test_meets_byteWrite :
    (0xFFFE : Addr).toNat < hardware.memSize.cells ∧
      hardware.memSize.cells ≤ (0xFFFF : Addr).toNat ∧
      (0xFFFF : Addr).toNat < fullSize.memSize.cells := by decide

/-- WordReadIsTwoByteReads: both bytes read, the first fails, the second fails. -/
theorem test_meets_wordRead :
    (readByte hardware [] 0xFFFD = .ok 0 ∧ readByte hardware [] (0xFFFD + 1) = .ok 0) ∧
      readByte hardware [] 0xFFFF = .error (.memoryRangeFault 0xFFFF) ∧
      (readByte hardware [] 0xFFFE = .ok 0 ∧
        readByte hardware [] (0xFFFE + 1) = .error (.memoryRangeFault 0xFFFF)) ∧
      hardware.memSize = .cells65535 := ⟨⟨rfl, rfl⟩, rfl, ⟨rfl, rfl⟩, rfl⟩

/-- WordWriteIsLittleEndian, WordRoundTrip: the last address of the first clause; the others name
theirs. -/
theorem test_meets_wordWrite : (0xFFFD : Addr).toNat < 0xFFFE ∧ (0xFFFD : Addr).toNat ≤ 0xFFFD := by
  decide

/-- EqualReadsEqualMemories. -/
theorem test_meets_equalReads :
    Memory.wf (cells [(5, 7), (0xFFFE, 1)]) = true ∧
      Memory.wf ([(5, 7), (0xFFFE, 1)] : Memory) = true ∧
      ∀ n, readCell (cells [(5, 7), (0xFFFE, 1)]) n = readCell [(5, 7), (0xFFFE, 1)] n :=
  ⟨rfl, rfl, fun _ => rfl⟩

/-- A store about to happen at 0xFFFE, with something in memory. -/
def storing : State := start 0x0200 0xC3 0 0 0 [(0x0200, 0x8D), (0x0201, 0xFE), (0x0202, 0xFF)]

/-- StepKeepsMemoryInv, StepKeepsStatusInv, ReservedStatusBitsKept, NothingReadsStatus: a step that
writes memory, and one that writes the flags. -/
theorem test_meets_stepInvariants :
    MemoryInv storing ∧ StatusInv storing ∧ (∃ t, step storing = .next t ∧ t.mem ≠ storing.mem) ∧
      StatusInv (start 0 0xFF 0 0 0x02 [(0, 0xAA)]) ∧
      ∃ t, step (start 0 0xFF 0 0 0x02 [(0, 0xAA)]) = .next t ∧ t.p = 0x80 :=
  ⟨⟨rfl, rfl⟩, .inl rfl, ⟨_, rfl, by decide⟩, .inr (.inl rfl), _, rfl, rfl⟩

/-- HostKeepsMemoryInv. -/
theorem test_meets_hostMemoryInv :
    (∃ t, load hardware [0xA9] storing = .next t) ∧
      ∃ t, hostWrite hardware 0xFFFE 0x55 { storing with runState := .halted } = .next t :=
  ⟨⟨_, rfl⟩, _, rfl⟩

/-! #### Encoding -/

/-- DecodeOfEncode, EncodeOfDecode, IllegalOpcodesRefused. -/
theorem test_meets_encoding :
    (Instr.ldaAbx 0xFFFF).wf = true ∧ Instr.inx.wf = true ∧
      decode [0xBD, 0xFF, 0xFF, 0x01] = .ok (.ldaAbx 0xFFFF, [0x01]) ∧
      (0xFF : Byte) ∉ legalOpcodes ∧ (0xE8 : Byte) ∈ legalOpcodes := by
  refine ⟨rfl, rfl, rfl, ?_, ?_⟩ <;> decide

/-! #### The resolver and the two memory operations -/

/-- ZeroPageModeAddresses, IndirectModeAddresses: PC at the last address with an operand byte, and at
the one without. -/
theorem test_meets_oneByteModes :
    (start 0xFFFE 0 0 0 0 []).pc ≠ 0xFFFF ∧ (start 0xFFFF 0 0 0 0 []).pc = 0xFFFF := by decide

/-- AbsoluteModeAddresses: the same for two operand bytes, both ends of the second clause. -/
theorem test_meets_twoByteModes :
    (start 0xFFFD 0 0 0 0 []).pc.toNat < 0xFFFE ∧ 0xFFFE ≤ (start 0xFFFE 0 0 0 0 []).pc.toNat ∧
      0xFFFE ≤ (start 0xFFFF 0 0 0 0 []).pc.toNat := by decide

/-- The pairs of a mode and its address, each mode once. -/
theorem test_meets_modePairs :
    let s := start 0x0200 0 0x02 0x03 0 [(0x0200, 0xFF), (0x0201, 0xFF), (0x00FF, 0x34), (0x0100, 0x12)]
    cellAt s s.pc.toNat = 0xFF ∧ pointerAt s s.pc.toNat = 0xFFFF ∧
      effectiveAddress hardware .zp s = .ok 0x00FF ∧ effectiveAddress hardware .zpx s = .ok 0x0001 ∧
      effectiveAddress hardware .zpy s = .ok 0x0002 ∧ effectiveAddress hardware .abs s = .ok 0xFFFF ∧
      effectiveAddress hardware .abx s = .ok 0x0001 ∧ effectiveAddress hardware .aby s = .ok 0x0002 ∧
      effectiveAddress hardware .izy s = .ok 0x1237 :=
  ⟨rfl, rfl, rfl, rfl, rfl, rfl, rfl, rfl, rfl⟩

/-- LoadAccumulatorAnyMode: the read succeeds, the resolver fails, the read fails. -/
theorem test_meets_loadAnyMode :
    let s := start 0x0200 0 0 0 0 [(0x0200, 0xFF), (0x0201, 0xFF)]
    (effectiveAddress hardware .zp s = .ok 0x00FF ∧ readByte hardware s.mem 0x00FF = .ok 0x00) ∧
      effectiveAddress hardware .none s = .error .invalidAddressingModeUse ∧
      (effectiveAddress hardware .abs s = .ok 0xFFFF ∧
        readByte hardware s.mem 0xFFFF = .error (.memoryRangeFault 0xFFFF)) :=
  ⟨⟨rfl, rfl⟩, rfl, rfl, rfl⟩

/-- StoreAccumulatorAnyMode: the last cell, the resolver fails, no cell. -/
theorem test_meets_storeAnyMode :
    effectiveAddress hardware .abs (start 0x0200 0 0 0 0 [(0x0200, 0xFE), (0x0201, 0xFF)]) =
        .ok 0xFFFE ∧
      (0xFFFE : Addr).toNat < hardware.memSize.cells ∧
      effectiveAddress hardware .zp (start 0xFFFF 0 0 0 0 []) = .error (.memoryRangeFault 0xFFFF) ∧
      effectiveAddress hardware .abs (start 0x0200 0 0 0 0 [(0x0200, 0xFF), (0x0201, 0xFF)]) =
        .ok 0xFFFF ∧
      hardware.memSize.cells ≤ (0xFFFF : Addr).toNat := by
  refine ⟨rfl, ?_, rfl, rfl, ?_⟩ <;> decide

/-! #### Instructions -/

/-- LdaAbsoluteCompletesOrFaults, StaAbsoluteCompletesOrFaults: each form at 0xFFFE and at 0xFFFF. -/
theorem test_meets_absolute :
    (0xFFFE : Addr).toNat ≠ 0xFFFF ∧ (0xFFFF : Addr).toNat = 0xFFFF ∧
      absSum (0xFF00 : Addr).toNat 0xFE ≠ 0xFFFF ∧ absSum (0xFF00 : Addr).toNat 0xFF = 0xFFFF ∧
      absSum (0xFFFF : Addr).toNat 0x01 = 0x0000 := by decide

/-- LdaIndirectCompletesOrFaults, StaIndirectCompletesOrFaults: each form at a cell and at 0xFFFF. -/
theorem test_meets_indirect :
    let s := start 0x0200 0 0x20 0x01 0 [(0x0010, 0xFF), (0x0011, 0xFF), (0x0040, 0xFE), (0x0041, 0xFF)]
    pointerAt s (zpSum 0xF0 s.x) = 0xFFFF ∧ pointerAt s (zpSum 0x20 s.x) = 0xFFFE ∧
      absSum (pointerAt s 0x40) s.y = 0xFFFF ∧ absSum (pointerAt s 0x10) s.y = 0x0000 := by decide

/-- WritersOfEachRegister: each register and memory does change under some instruction. -/
theorem test_meets_writers :
    let s := start 0x0200 0x12 0 0 0 []
    (∃ t, exec (.ldaImm 0x80) s = .next t ∧ t.a ≠ s.a ∧ t.p ≠ s.p) ∧
      (∃ t, exec .tax s = .next t ∧ t.x ≠ s.x) ∧ (∃ t, exec .inx s = .next t ∧ t.x ≠ s.x) ∧
      (∃ t, exec .tay s = .next t ∧ t.y ≠ s.y) ∧ (∃ t, exec .iny s = .next t ∧ t.y ≠ s.y) ∧
      ∃ t, exec (.staZp 0x10) s = .next t ∧ t.mem ≠ s.mem :=
  ⟨⟨_, rfl, by decide⟩, ⟨_, rfl, by decide⟩, ⟨_, rfl, by decide⟩, ⟨_, rfl, by decide⟩,
    ⟨_, rfl, by decide⟩, _, rfl, by decide⟩

/-! #### Whole-machine rules -/

/-- ControlIsSequential, ProgramCounterRises, StepKeepsSequencerInv: a step that goes on, one that
halts and one that faults, each from a state that meets the invariant. -/
theorem test_meets_control :
    (∃ t, step (start 0xFFFE 0 0 0 0 [(0xFFFE, 0xE8)]) = .next t ∧ t.runState = .fetching) ∧
      (∃ t, step (start 0xFFFE 0 0 0 0 []) = .next t ∧ t.runState = .halted) ∧
      (∃ t, step (start 0xFFFE 0 0 0 0 [(0xFFFE, 0xA9)]) = .next t ∧ t.runState = .faulted) ∧
      ∀ pc, SequencerInv (start pc 0 0 0 0 []) :=
  ⟨⟨_, rfl, rfl⟩, ⟨_, rfl, rfl⟩, ⟨_, rfl, rfl⟩, fun _ => ⟨.inl rfl, by simp [start, State.reset]⟩⟩

/-- EveryRunOfAWellFormedTableEnds. -/
theorem test_meets_everyRun :
    hardware.WellFormed ∧ hardware.memSize = .cells65535 ∧ State.reset.runState = .fetching :=
  ⟨hardware_wellFormed, rfl, rfl⟩

/-- HaltedOnlyViaHalt: from Fetching, from Decoding, from Executing, and Halted itself. -/
theorem test_meets_halted :
    (∃ t, step (start 0x0200 0 0 0 0 []) = .next t ∧ t.runState = .halted) ∧
      (∃ t, step { State.reset with runState := .decoding } = .next t ∧ t.runState = .halted) ∧
      (∃ t, step { State.reset with runState := .executing } = .next t ∧ t.runState = .halted) ∧
      (State.powerOn 0 0 0 0 0 []).runState = .halted :=
  ⟨⟨_, rfl, rfl⟩, ⟨_, rfl, rfl⟩, ⟨_, rfl, rfl⟩, rfl⟩

/-- FaultedIsSticky: the state that U1 ends in. -/
theorem test_meets_faulted :
    ∃ t, step (start 0x8003 0x05 0x05 0 0 [(0x8003, 0x02)]) = .next t ∧ t.runState = .faulted :=
  ⟨_, rfl, rfl⟩

/-! #### Stepping -/

/-- StepRunsDecodedInstruction: the last place a three-byte instruction fits. -/
theorem test_meets_stepRuns :
    let s := start 0xFFFC 0 0 0 0 [(0xFFFC, 0xAD), (0xFFFE, 0x02)]
    s.runState = .fetching ∧ readBytes hardware s.mem s.pc 3 = .ok [0xAD, 0x00, 0x02] ∧
      decode [0xAD, 0x00, 0x02] = .ok (.ldaAbs 0x0200, []) ∧ (Instr.ldaAbs 0x0200).wf = true :=
  ⟨rfl, rfl, rfl, rfl⟩

/-- FetchWordRunsNext: PC at the last admitted place, and right after reset. -/
theorem test_meets_fetchWord :
    (start 0xFFFC 0 0 0 0 []).pc.toNat ≤ 0xFFFC ∧ State.reset.pc.toNat ≤ 0xFFFC ∧
      decodeTableWord 24 0x0200AD = some (.ldaAbs 0x0200) := by decide

/-- A state inside an instruction. -/
def inside (r : RunState) (op : Byte) (m : AddrMode) (l : InstrLen) : State :=
  { start 0x0201 0 0 0 0 [(0x0200, op), (0x0201, 0x05)] with
    runState := r, op := op, opaddr := 0x0200, mode := m, len := l, preDispatchPC := 0x0201 }

/-- SequencerTransitions: each of its clauses. -/
theorem test_meets_transitions :
    readByte hardware (start 0xFFFE 0 0 0 0 []).mem 0xFFFE = .ok 0x00 ∧
      readByte hardware (start 0xFFFF 0 0 0 0 []).mem 0xFFFF = .error (.memoryRangeFault 0xFFFF) ∧
      hardware.optable (inside .decoding 0xA9 .none .one).op = some ⟨.imm, .two⟩ ∧
      hardware.optable (inside .decoding 0x02 .none .one).op = none ∧
      noOperationTable.opsel (inside .executing 0xE8 .none .one).op = none ∧
      hardware.opsel (inside .executing 0x00 .none .one).op = some .halt ∧
      hardware.opsel (inside .executing 0xA9 .imm .two).op = some .loadAccumulator ∧
      (inside .advancing 0xA9 .imm .two).runState = .advancing ∧
      RunOver (State.powerOn 0 0 0 0 0 []) :=
  ⟨rfl, rfl, rfl, rfl, rfl, rfl, rfl, rfl, .inl rfl⟩

/-- AdvancingComparesProgramCounter: PC as dispatch found it, and a PC changed since. -/
theorem test_meets_advancing :
    (inside .advancing 0xA9 .imm .two).pc = (inside .advancing 0xA9 .imm .two).preDispatchPC ∧
      (0x0300 : Addr) ≠ ({ inside .advancing 0xA9 .imm .two with pc := 0x0300 }).preDispatchPC := by
  decide

/-- StoreSeenByNextFetch: the opcode of the next instruction written by an absolute store, its operand
byte by an indexed one (program P3 stores an operand byte); an indirect form's address. -/
theorem test_meets_storeSeen :
    (dataAddress (.staAbs 0x0203) (start 0x0200 0xE8 0 0 0 []) = some 0x0203 ∧
      ∃ t, exec (.staAbs 0x0203) (start 0x0200 0xE8 0 0 0 []) = .next t ∧
        t.pc = BitVec.ofNat 16 0x0203) ∧
      (dataAddress (.staZpx 0x01) (start 0x0020 0x2A 0x22 0 0 [(0x22, 0xA9)]) = some 0x0023 ∧
        ∃ t, exec (.staZpx 0x01) (start 0x0020 0x2A 0x22 0 0 [(0x22, 0xA9)]) = .next t ∧
          readBytes hardware t.mem t.pc 2 = .ok [0xA9, 0x2A] ∧
          t.pc + BitVec.ofNat 16 1 = BitVec.ofNat 16 0x0023) ∧
      dataAddress (.staIzy 0x40) (start 0x0200 0x2A 0 0x03 0 [(0x0041, 0x02)]) = some 0x0203 :=
  ⟨⟨rfl, _, rfl, rfl⟩, ⟨rfl, _, rfl, rfl, rfl⟩, rfl⟩

/-! #### Fatal errors -/

/-- UnsupportedOpcodeFaults, OperationSetIsTheAuthority: no descriptor, and no operation only. -/
theorem test_meets_unsupported :
    readByte hardware (start 0xFFFE 0 0 0 0 [(0xFFFE, 0xFF)]).mem 0xFFFE = .ok 0xFF ∧
      (0xFF : Byte) ∉ legalOpcodes ∧ hardware.optable 0xFF = none ∧
      (noOperationTable.optable 0xE8).isSome = true ∧ noOperationTable.opsel 0xE8 = none := by
  refine ⟨rfl, ?_, rfl, rfl, rfl⟩
  decide

/-- FetchAtTopFaults. -/
theorem test_meets_fetchAtTop :
    (start 0xFFFF 0 0 0 0 []).runState = .fetching ∧ (start 0xFFFF 0 0 0 0 []).pc = 0xFFFF :=
  ⟨rfl, rfl⟩

/-- StraddlingInstructionFaults: two bytes at 0xFFFE, three at 0xFFFD. -/
theorem test_meets_straddling :
    (readByte hardware (start 0xFFFE 0 0 0 0 [(0xFFFE, 0xA9)]).mem 0xFFFE =
        .ok (Instr.ldaImm 0).opcode ∧
      0xFFFF < (0xFFFE : Addr).toNat + (Instr.ldaImm 0).len.toNat) ∧
      readByte hardware (start 0xFFFD 0 0 0 0 [(0xFFFD, 0xAD)]).mem 0xFFFD =
        .ok (Instr.ldaAbs 0).opcode ∧
      0xFFFF < (0xFFFD : Addr).toNat + (Instr.ldaAbs 0).len.toNat := by
  refine ⟨⟨rfl, ?_⟩, rfl, ?_⟩ <;> decide

/-- ErrorsArePrecise: a faulting opcode fetch, a faulting operand read, a faulting data access, an
unsupported opcode. -/
theorem test_meets_precise :
    [start 0xFFFF 0 0 0 0 [], start 0xFFFE 0 0 0 0 [(0xFFFE, 0xA9)],
      start 0x0200 0 0 0 0 [(0x0200, 0x8D), (0x0201, 0xFF), (0x0202, 0xFF)],
      start 0x0200 0 0 0 0 [(0x0200, 0x02)]].map
        (fun s => (nextOf (step s)).map (fun t => (s.runState, t.runState))) =
      List.replicate 4 (some (.fetching, .faulted)) := by decide

/-- InvalidModeOnlyFromBadTable: the bad table; and a well-formed one stepping with the error on
record from before. -/
theorem test_meets_invalidMode :
    (noModeTable.optable 0xA9 = some ⟨.none, .one⟩ ∧ noModeTable.opsel 0xA9 = some .loadAccumulator) ∧
      hardware.WellFormed ∧
      (sequencerStep hardware
        { start 0 0 0 0 0 [(0, 0xE8)] with fault := some (.invalidAddressingModeUse 0xA9 0) }).fault =
        some (.invalidAddressingModeUse 0xA9 0) :=
  ⟨⟨rfl, rfl⟩, hardware_wellFormed, rfl⟩

/-- RangeFaultOnlyAtTop. -/
theorem test_meets_rangeFault :
    ∃ op, (sequencerStep hardware (start 0xFFFF 0 0 0 0 [])).fault =
      some (.memoryRangeFault 0xFFFF 0xFFFF op) := ⟨_, rfl⟩

/-! #### The host -/

/-- LoadEffect, LoadAndRunStart: the longest image and one byte more; a byte of the image in the
cell below the vector's, and one above it. -/
theorem test_meets_load :
    (List.replicate 32767 (0xE8 : Byte)).length ≤ 32767 ∧
      32767 < (List.replicate 32768 (0xE8 : Byte)).length ∧
      0x7FFB < (List.replicate 32767 (0xE8 : Byte)).length ∧ 0x8000 + 0x7FFB ≠ 0xFFFC ∧
      0x7FFE < (List.replicate 32767 (0xE8 : Byte)).length ∧ 0x8000 + 0x7FFE ≠ 0xFFFD := by
  simp only [List.length_replicate]
  decide

/-- HostWriteOnlyAtRest: at rest at the last cell and at 0xFFFF; running. -/
theorem test_meets_hostWrite :
    RunOver (State.powerOn 0 0 0 0 0 []) ∧ (0xFFFE : Addr) ≠ 0xFFFF ∧ ¬ RunOver State.reset :=
  ⟨.inl rfl, by decide, by simp [RunOver, State.reset]⟩

end Sys2Proof.Tests
end

/-!
SUPPORT and PROOFS for the statements about the state (10_state.md): the sequencer's boundary, the
canonical memory, the status byte, who writes each register, and that nothing reads P.
-/

namespace Sys2Proof.Machine

/-! ### The sequencer's invariant -/

/-- A run that has not ended by an error is at a boundary with no error recorded. -/
theorem sequencerInv_of_no_fault {t : State} (hr : t.runState = .fetching ∨ t.runState = .halted)
    (hf : t.fault = none) : SequencerInv t := by
  rcases hr with hr | hr <;> simp [SequencerInv, AtBoundary, hr, hf]

/-- Taking a fatal error ends at Faulted with the error recorded (60_exceptions.md R128). -/
theorem sequencerInv_raise (e : FatalError) (s : State) : SequencerInv (raise e s) := by
  simp [SequencerInv, AtBoundary]

/-- At Fetching the invariant says that no error is recorded. -/
theorem fault_eq_none_of_fetching {s : State} (h : SequencerInv s) (hs : s.runState = .fetching) :
    s.fault = none := by
  simpa [SequencerInv, AtBoundary, hs] using h

/-- Executing an instruction with no error recorded ends at a boundary as the invariant says. -/
theorem sequencerInv_of_execCase {i : Instr} {s t : State} (hf : s.fault = none)
    (h : ExecCase i s t) : SequencerInv t := by
  cases h with
  | fault => exact sequencerInv_raise _ _
  | halt => exact sequencerInv_of_no_fault (.inr rfl) hf
  | load | store | tax | tay | inx | iny => exact sequencerInv_of_no_fault (.inl rfl) hf

/-- Fetching that finds no instruction ends in a fatal error. -/
theorem sequencerInv_of_fetchCase_error {s t : State} (h : FetchCase s (.error t)) :
    SequencerInv t := by
  cases h <;> exact sequencerInv_raise _ _

/-- Settles O39: by the cases of a step. The states inside an instruction are no boundary, a run that
is over stays as it is, and from Fetching the two lemmas above say where the instruction ends. -/
theorem stepKeepsSequencerInv : Obligations.StepKeepsSequencerInv := by
  intro s t hinv hstep
  rcases step_cases s with ⟨-, h⟩ | ⟨hin, -⟩ | ⟨hs, ⟨u, hu, h⟩ | ⟨i, -, h⟩⟩
  · cases h.symm.trans hstep
    exact hinv
  · obtain ⟨hb, -⟩ := hinv
    rcases hin with hs | hs | hs <;> simp [AtBoundary, hs] at hb
  · cases h.symm.trans hstep
    exact sequencerInv_of_fetchCase_error hu
  · exact sequencerInv_of_execCase (fault_eq_none_of_fetching hinv hs)
      (execCase_of_exec (h.symm.trans hstep))

/-! ### Canonical memories -/

/-- A canonical memory is its first entry, which is listed, and canonical from the next address on. -/
theorem wfFrom_cons {lo k : Nat} {v : Byte} {m : Memory} :
    Memory.wfFrom lo ((k, v) :: m) = true ↔
      lo ≤ k ∧ v ≠ unlistedByte ∧ Memory.wfFrom (k + 1) m = true := by
  simp [Memory.wfFrom, and_assoc]

theorem readCell_cons_same (k : Nat) (v : Byte) (m : Memory) : readCell ((k, v) :: m) k = v :=
  if_pos rfl

theorem readCell_cons_ne {k a : Nat} (h : k ≠ a) (v : Byte) (m : Memory) :
    readCell ((k, v) :: m) a = readCell m a :=
  if_neg h

/-- Below its lowest possible address a canonical memory lists nothing. -/
theorem readCell_of_lt_wfFrom {m : Memory} : ∀ {lo a : Nat}, Memory.wfFrom lo m = true → a < lo →
    readCell m a = unlistedByte := by
  induction m with
  | nil => exact fun _ _ => rfl
  | cons c m ih =>
    obtain ⟨k, v⟩ := c
    intro lo a h ha
    obtain ⟨hlo, -, hm⟩ := wfFrom_cons.mp h
    rw [readCell_cons_ne (by omega)]
    exact ih hm (by omega)

/-- A memory that reads like one whose first entry is at `k` may list `k`. -/
theorem le_of_readCell_head {lo lo' k : Nat} {v : Byte} {m m' : Memory}
    (h : Memory.wfFrom lo ((k, v) :: m) = true) (h' : Memory.wfFrom lo' m' = true)
    (hr : ∀ n, readCell ((k, v) :: m) n = readCell m' n) : lo' ≤ k := by
  obtain ⟨-, hv, -⟩ := wfFrom_cons.mp h
  by_contra hlt
  have hk := hr k
  rw [readCell_cons_same, readCell_of_lt_wfFrom h' (by omega)] at hk
  exact hv hk

/-- A canonical memory that reads as if nothing were listed is empty. -/
theorem eq_nil_of_readCell_unlisted {m : Memory} {lo : Nat} (h : Memory.wfFrom lo m = true)
    (hr : ∀ n, readCell m n = unlistedByte) : m = [] := by
  cases m with
  | nil => rfl
  | cons c m =>
    obtain ⟨-, hv, -⟩ := wfFrom_cons.mp h
    exact absurd ((readCell_cons_same c.1 c.2 m).symm.trans (hr c.1)) hv

/-- Behind a first entry at one address, canonical memories that read alike read alike: neither rest
lists that address. -/
theorem readCell_tails_eq {k : Nat} {v v' : Byte} {m m' : Memory}
    (hm : Memory.wfFrom (k + 1) m = true) (hm' : Memory.wfFrom (k + 1) m' = true)
    (hr : ∀ n, readCell ((k, v) :: m) n = readCell ((k, v') :: m') n) (n : Nat) :
    readCell m n = readCell m' n := by
  by_cases hn : k = n
  · subst hn
    rw [readCell_of_lt_wfFrom hm (by omega), readCell_of_lt_wfFrom hm' (by omega)]
  · rw [← readCell_cons_ne hn v, hr n, readCell_cons_ne hn]

/-- Canonical memories that read alike are equal: neither's first entry is below the other's, so the
two are one, and the rests read alike. -/
theorem eq_of_readCell_eq {m : Memory} : ∀ {m' : Memory} {lo lo' : Nat},
    Memory.wfFrom lo m = true → Memory.wfFrom lo' m' = true →
    (∀ n, readCell m n = readCell m' n) → m = m' := by
  induction m with
  | nil => exact fun _ h' hr => (eq_nil_of_readCell_unlisted h' fun n => (hr n).symm).symm
  | cons c m ih =>
    obtain ⟨k, v⟩ := c
    intro m' lo lo' h h' hr
    cases m' with
    | nil => exact eq_nil_of_readCell_unlisted h hr
    | cons c' m' =>
      obtain ⟨k', v'⟩ := c'
      obtain ⟨-, hv, hm⟩ := wfFrom_cons.mp h
      obtain ⟨-, hv', hm'⟩ := wfFrom_cons.mp h'
      have hle : k' ≤ k := le_of_readCell_head h (wfFrom_cons.mpr ⟨le_rfl, hv', hm'⟩) hr
      have hge : k ≤ k' :=
        le_of_readCell_head h' (wfFrom_cons.mpr ⟨le_rfl, hv, hm⟩) fun n => (hr n).symm
      obtain rfl : k = k' := le_antisymm hge hle
      obtain rfl : v = v' := by simpa only [readCell_cons_same] using hr k
      rw [ih hm hm' (readCell_tails_eq hm hm' hr)]

/-- Settles O5, by induction on the list of cells. -/
theorem equalReadsEqualMemories : Obligations.EqualReadsEqualMemories :=
  fun _ _ h h' => eq_of_readCell_eq h h'

/-! ### The flag updates -/

/-- `SetZN` is the flags of the result, every other bit kept. -/
theorem flagsFrom_setZN (p r : Byte) : FlagsFrom r p (setZN p r) := by
  refine ⟨?_, ?_, fun i h1 h7 => ?_⟩
  · rw [zeroFlag, zBit, setZN_getLsbD, if_neg (by decide), if_pos rfl]
  · rw [negativeFlag, nBit, setZN_getLsbD, if_pos rfl]
  · rw [setZN_getLsbD, if_neg h7, if_neg h1]

/-- The two flag updates commute: they write different bits. -/
theorem setZN_eq_zero_after_negative (p r : Byte) :
    setZN p r = updateZeroFlag (updateNegativeFlag p r) r := by
  refine BitVec.eq_of_getLsbD_eq fun i _ => ?_
  rw [setZN_getLsbD, updateZeroFlag_getLsbD, updateNegativeFlag_getLsbD]
  split
  · rename_i h
    simp [h]
  · rfl

/-- Settles O8: bit by bit; a result with bit 7 set is not 0, so the two flags exclude each other. -/
theorem flagUpdatesTouchTheirOwnBits : Obligations.FlagUpdatesTouchTheirOwnBits := by
  intro p r
  have hflags := flagsFrom_setZN p r
  refine ⟨⟨?_, fun i hi => ?_⟩, ⟨?_, fun i hi => ?_⟩, hflags, setZN_eq_zero_after_negative p r, ?_⟩
  · rw [zeroFlag, zBit, updateZeroFlag_getLsbD, if_pos rfl]
  · rw [updateZeroFlag_getLsbD, if_neg hi]
  · rw [negativeFlag, nBit, updateNegativeFlag_getLsbD, if_pos rfl]
  · rw [updateNegativeFlag_getLsbD, if_neg hi]
  · obtain ⟨hz, hn, -⟩ := hflags
    rw [hz, hn, decide_eq_true_eq]
    rintro ⟨rfl, h⟩
    simp at h

/-! ### What a step does to the status byte -/

section
variable {Q : Byte → Prop} (hQ : ∀ p v, Q p → Q (setZN p v))
include hQ

/-- What `SetZN` keeps of the status byte, executing an instruction keeps. -/
theorem execCase_keeps_status {i : Instr} {s t : State} (h : ExecCase i s t) (hs : Q s.p) :
    Q t.p := by
  cases h with
  | load | tax | tay | inx | iny => exact hQ _ _ hs
  | store | halt | fault => exact hs

/-- What `SetZN` keeps of the status byte, an operation that completes keeps. -/
theorem performCase_keeps_status {k : Params} {o : Operation} {mode : AddrMode} {s t : State}
    (h : PerformCase k o mode s (.ok t)) (hs : Q s.p) : Q t.p := by
  cases h with
  | load | setX | setY => exact hQ _ _ hs
  | store | halt => exact hs

/-- What `SetZN` keeps of the status byte, a phase keeps. -/
theorem phaseCase_keeps_status {k : Params} {s t : State} (h : PhaseCase k s t) (hs : Q s.p) :
    Q t.p := by
  cases h with
  | execute o t _ _ hp => exact performCase_keeps_status hQ hp hs
  | idle | fetch | fetchFault | decode | noDescriptor | noOperation | executeFault | advance =>
    exact hs

/-- What `SetZN` keeps of the status byte, every step keeps: nothing else writes P. -/
theorem step_keeps_status {s t : State} (h : step s = .next t) (hs : Q s.p) : Q t.p := by
  rcases step_cases s with ⟨-, h'⟩ | ⟨-, h'⟩ | ⟨-, ⟨u, hu, h'⟩ | ⟨i, -, h'⟩⟩
  · cases h'.symm.trans h
    exact hs
  · cases h'.symm.trans h
    exact sequencerStep_keeps (Q := fun s => Q s.p) (fun _ _ => phaseCase_keeps_status hQ) s hs
  · cases h'.symm.trans h
    cases hu <;> exact hs
  · exact execCase_keeps_status hQ (execCase_of_exec (h'.symm.trans h)) hs

end

/-- Settles O9: `SetZN` keeps every bit but 1 and 7. -/
theorem reservedStatusBitsKept : Obligations.ReservedStatusBitsKept := by
  intro s t i h h1 h7
  refine step_keeps_status (Q := fun p => p.getLsbD i = s.p.getLsbD i) (fun p v hp => ?_) h rfl
  rw [setZN_getLsbD, if_neg h7, if_neg h1, hp]

/-- `SetZN` leads from each of the three status bytes a run from reset can show to one of them. -/
theorem setZN_threeValues {p : Byte} (hp : p = 0x00 ∨ p = 0x02 ∨ p = 0x80) (r : Byte) :
    setZN p r = 0x00 ∨ setZN p r = 0x02 ∨ setZN p r = 0x80 := by
  by_cases hr : r = 0
  · subst hr
    rcases hp with rfl | rfl | rfl <;> decide
  · unfold setZN updateZeroFlag updateNegativeFlag
    rw [if_neg hr]
    rcases hp with rfl | rfl | rfl <;> split <;> decide

/-- Settles O10: `SetZN` keeps the three values among themselves, and nothing else writes P. -/
theorem stepKeepsStatusInv : Obligations.StepKeepsStatusInv := fun _ _ hs h =>
  step_keeps_status (Q := fun p => p = 0x00 ∨ p = 0x02 ∨ p = 0x80)
    (fun _ r hp => setZN_threeValues hp r) h hs

/-! ### Which operations write which register -/

/-- Settles O32: in each case of `exec` the fields that differ are those its operation writes. -/
theorem writersOfEachRegister : Obligations.WritersOfEachRegister := by
  intro i s t h
  cases execCase_of_exec h with
  | load v hi | store addr hi => simp [hi]
  | tax hi | tay hi | inx hi | iny hi | halt hi => simp [hi, Instr.operation]
  | fault => simp

/-! ### Reset -/

/-- After a reset of any state the sequencer is at Fetching with no error recorded (R144). -/
theorem sequencerInv_applyReset (k : Params) (s : State) : SequencerInv (applyReset k s) :=
  sequencerInv_of_no_fault (.inl (applyReset_runState k s)) (applyReset_fault k s)

/-- Settles O56: a reset ends at Fetching with no error and P = 0x00, and `State.reset` lists no cell. -/
theorem invariantsAtReset : Obligations.InvariantsAtReset :=
  ⟨⟨reset_mem_wf, rfl⟩, sequencerInv_of_no_fault (.inl rfl) rfl, .inl rfl,
    fun k s => ⟨sequencerInv_applyReset k s, .inl (applyReset_p k s)⟩⟩

/-! ### Nothing reads the status byte -/

/-- The state with another status byte. -/
def State.withStatus (s : State) (q : Byte) : State := { s with p := q }

@[simp] theorem withStatus_a (s : State) (q : Byte) : (s.withStatus q).a = s.a := rfl
@[simp] theorem withStatus_x (s : State) (q : Byte) : (s.withStatus q).x = s.x := rfl
@[simp] theorem withStatus_y (s : State) (q : Byte) : (s.withStatus q).y = s.y := rfl
@[simp] theorem withStatus_pc (s : State) (q : Byte) : (s.withStatus q).pc = s.pc := rfl
@[simp] theorem withStatus_mem (s : State) (q : Byte) : (s.withStatus q).mem = s.mem := rfl
@[simp] theorem withStatus_op (s : State) (q : Byte) : (s.withStatus q).op = s.op := rfl
@[simp] theorem withStatus_mode (s : State) (q : Byte) : (s.withStatus q).mode = s.mode := rfl
@[simp] theorem withStatus_runState (s : State) (q : Byte) :
    (s.withStatus q).runState = s.runState := rfl

@[simp] theorem dispatched_withStatus (s : State) (q : Byte) :
    dispatched (s.withStatus q) = (dispatched s).withStatus q := rfl

@[simp] theorem enterInstr_withStatus (i : Instr) (s : State) (q : Byte) :
    enterInstr i (s.withStatus q) = (enterInstr i s).withStatus q := rfl

/-- Two answers of an operation: the same error, or one state but for its status byte. -/
def SameButStatus (x y : Except FatalError State) : Prop := ∃ r, y = x.map (·.withStatus r)

theorem sameButStatus_ok (t : State) (r : Byte) : SameButStatus (.ok t) (.ok (t.withStatus r)) :=
  ⟨r, rfl⟩

theorem sameButStatus_error (e : FatalError) : SameButStatus (.error e) (.error e) := ⟨0, rfl⟩

/-! #### The operations -/

theorem loadFrom_withStatus (k : Params) (ea : Addr) (s : State) (q : Byte) :
    SameButStatus (loadFrom k ea s) (loadFrom k ea (s.withStatus q)) := by
  simp only [loadFrom, withStatus_mem]
  cases readByte k s.mem ea with
  | error e => exact sameButStatus_error e
  | ok v => exact sameButStatus_ok _ (setZN q v)

theorem storeTo_withStatus (k : Params) (ea : Addr) (s : State) (q : Byte) :
    SameButStatus (storeTo k ea s) (storeTo k ea (s.withStatus q)) := by
  simp only [storeTo, withStatus_mem, withStatus_a]
  cases writeByte k s.mem ea s.a with
  | error e => exact sameButStatus_error e
  | ok m => exact sameButStatus_ok _ q

theorem atAddress_sameButStatus {f g : Addr → Except FatalError State}
    (h : ∀ ea, SameButStatus (f ea) (g ea)) (x : Except FatalError Addr) :
    SameButStatus (atAddress x f) (atAddress x g) := by
  cases x with
  | error e => exact sameButStatus_error e
  | ok ea => exact h ea

theorem map_executed_sameButStatus {x y : Except FatalError State} (h : SameButStatus x y) :
    SameButStatus (x.map executed) (y.map executed) := by
  obtain ⟨r, rfl⟩ := h
  cases x with
  | error e => exact sameButStatus_error e
  | ok t => exact sameButStatus_ok _ r

/-- The resolver reads no flag (R79). -/
@[simp] theorem effectiveAddress_withStatus (k : Params) (mode : AddrMode) (s : State) (q : Byte) :
    effectiveAddress k mode (s.withStatus q) = effectiveAddress k mode s :=
  effectiveAddress_congr (withStatus_pc s q) (withStatus_x s q) (withStatus_y s q)
    (withStatus_mem s q)

theorem perform_withStatus (k : Params) (o : Operation) (mode : AddrMode) (s : State) (q : Byte) :
    SameButStatus (perform k o mode s) (perform k o mode (s.withStatus q)) := by
  cases o with
  | loadAccumulator =>
    simp only [perform, loadAccumulator, effectiveAddress_withStatus]
    exact map_executed_sameButStatus
      (atAddress_sameButStatus (fun ea => loadFrom_withStatus k ea s q) _)
  | storeAccumulator =>
    simp only [perform, storeAccumulator, effectiveAddress_withStatus]
    exact map_executed_sameButStatus
      (atAddress_sameButStatus (fun ea => storeTo_withStatus k ea s q) _)
  | transferAccumulatorToX | transferAccumulatorToY => exact sameButStatus_ok _ (setZN q s.a)
  | incrementX => exact sameButStatus_ok _ (setZN q (s.x + 1))
  | incrementY => exact sameButStatus_ok _ (setZN q (s.y + 1))
  | halt => exact sameButStatus_ok _ q

/-! #### The sequencer's phases -/

theorem fetchPhase_withStatus (k : Params) (s : State) (q : Byte) :
    fetchPhase k (s.withStatus q) = (fetchPhase k s).withStatus q := by
  simp only [fetchPhase, withStatus_mem, withStatus_pc]
  cases readByte k s.mem s.pc <;> rfl

theorem decodePhase_withStatus (k : Params) (s : State) (q : Byte) :
    decodePhase k (s.withStatus q) = (decodePhase k s).withStatus q := by
  simp only [decodePhase, withStatus_op]
  cases k.optable s.op <;> rfl

theorem executePhase_withStatus (k : Params) (s : State) (q : Byte) :
    ∃ r, executePhase k (s.withStatus q) = (executePhase k s).withStatus r := by
  simp only [executePhase, withStatus_op, withStatus_mode, dispatched_withStatus]
  cases k.opsel s.op with
  | none => exact ⟨q, rfl⟩
  | some o =>
    obtain ⟨r, h⟩ := perform_withStatus k o s.mode (dispatched s) q
    simp only [h]
    cases perform k o s.mode (dispatched s) with
    | error e => exact ⟨q, rfl⟩
    | ok t => exact ⟨r, rfl⟩

theorem phase_withStatus (k : Params) (s : State) (q : Byte) :
    ∃ r, phase k (s.withStatus q) = (phase k s).withStatus r := by
  simp only [phase, withStatus_runState]
  cases s.runState with
  | fetching => exact ⟨q, fetchPhase_withStatus k s q⟩
  | decoding => exact ⟨q, decodePhase_withStatus k s q⟩
  | executing => exact executePhase_withStatus k s q
  | advancing | halted | faulted => exact ⟨q, rfl⟩

theorem toBoundary_withStatus (k : Params) (n : Nat) : ∀ (s : State) (q : Byte),
    ∃ r, toBoundary k n (s.withStatus q) = (toBoundary k n s).withStatus r := by
  induction n with
  | zero => exact fun s q => ⟨q, rfl⟩
  | succ n ih =>
    intro s q
    obtain ⟨r, h⟩ := phase_withStatus k s q
    simp only [toBoundary, withStatus_runState, h]
    cases s.runState with
    | decoding | executing | advancing => exact ih _ r
    | fetching | halted | faulted => exact ⟨q, rfl⟩

theorem sequencerStep_withStatus (k : Params) (s : State) (q : Byte) :
    ∃ r, sequencerStep k (s.withStatus q) = (sequencerStep k s).withStatus r := by
  obtain ⟨r, h⟩ := phase_withStatus k s q
  rw [sequencerStep, h]
  exact toBoundary_withStatus k 3 _ r

/-! #### Whole instructions -/

/-- Two outcomes answer one next state but for its status byte. -/
def NextSameButStatus (x y : Host.Outcome State Fault Refusal) : Prop :=
  ∃ t r, x = .next t ∧ y = .next (t.withStatus r)

theorem conclude_withStatus {x y : Except FatalError State} (h : SameButStatus x y) (s : State)
    (q : Byte) : ∃ r, conclude (s.withStatus q) y = (conclude s x).withStatus r := by
  obtain ⟨r, rfl⟩ := h
  cases x with
  | error e => exact ⟨q, rfl⟩
  | ok t => exact ⟨r, rfl⟩

section
variable {ea : State → Except FatalError Addr} (hea : ∀ s q, ea (s.withStatus q) = ea s)
include hea

theorem runLoad_withStatus (i : Instr) (s : State) (q : Byte) :
    NextSameButStatus (runLoad i ea s) (runLoad i ea (s.withStatus q)) := by
  obtain ⟨r, h⟩ := conclude_withStatus (atAddress_sameButStatus
    (fun addr => loadFrom_withStatus hardware addr (enterInstr i s) q) (ea (enterInstr i s)))
    (enterInstr i s) q
  exact ⟨_, r, rfl, by rw [runLoad, enterInstr_withStatus, hea, h]⟩

theorem runStore_withStatus (i : Instr) (s : State) (q : Byte) :
    NextSameButStatus (runStore i ea s) (runStore i ea (s.withStatus q)) := by
  obtain ⟨r, h⟩ := conclude_withStatus (atAddress_sameButStatus
    (fun addr => storeTo_withStatus hardware addr (enterInstr i s) q) (ea (enterInstr i s)))
    (enterInstr i s) q
  exact ⟨_, r, rfl, by rw [runStore, enterInstr_withStatus, hea, h]⟩

end

/-- The effect of an instruction does not depend on the status byte. -/
theorem exec_withStatus (i : Instr) (s : State) (q : Byte) :
    NextSameButStatus (exec i s) (exec i (s.withStatus q)) := by
  cases i with
  | brk => exact ⟨_, q, rfl, rfl⟩
  | tax | tay => exact ⟨_, setZN q s.a, rfl, rfl⟩
  | inx => exact ⟨_, setZN q (s.x + 1), rfl, rfl⟩
  | iny => exact ⟨_, setZN q (s.y + 1), rfl, rfl⟩
  | ldaImm d8 => exact ⟨_, setZN q d8, rfl, rfl⟩
  | ldaZp | ldaZpx | ldaAbs | ldaAbx | ldaAby | ldaIzx | ldaIzy =>
    simp only [exec, execLdaZp, execLdaZpx, execLdaAbs, execLdaAbx, execLdaAby, execLdaIzx,
      execLdaIzy]
    exact runLoad_withStatus (fun _ _ => rfl) _ s q
  | staZp | staZpx | staAbs | staAbx | staAby | staIzx | staIzy =>
    simp only [exec, execStaZp, execStaZpx, execStaAbs, execStaAbx, execStaAby, execStaIzx,
      execStaIzy]
    exact runStore_withStatus (fun _ _ => rfl) _ s q

/-- Fetching an instruction answers the same, but for the status byte of a state it faults in. -/
theorem fetchInstr_withStatus (s : State) (q : Byte) :
    fetchInstr (s.withStatus q) = (fetchInstr s).mapError (·.withStatus q) := by
  simp only [fetchInstr, withStatus_mem, withStatus_pc]
  cases readByte hardware s.mem s.pc with
  | error e => rfl
  | ok op =>
    dsimp only
    cases hardware.optable op with
    | none => rfl
    | some d =>
      dsimp only
      cases hardware.opsel op with
      | none => rfl
      | some o =>
        dsimp only
        cases readBytes hardware s.mem (s.pc + 1) d.len.operands with
        | error e => rfl
        | ok bs =>
          dsimp only
          cases decode (op :: bs) <;> rfl

/-- A step does not depend on the status byte. -/
theorem step_withStatus (s : State) (q : Byte) :
    NextSameButStatus (step s) (step (s.withStatus q)) := by
  simp only [step, withStatus_runState, fetchInstr_withStatus]
  cases s.runState with
  | fetching =>
    cases fetchInstr s with
    | error t => exact ⟨t, q, rfl, rfl⟩
    | ok i => exact exec_withStatus i s q
  | decoding | executing | advancing =>
    obtain ⟨r, h⟩ := sequencerStep_withStatus hardware s q
    exact ⟨_, r, rfl, congrArg _ h⟩
  | halted | faulted => exact ⟨s, q, rfl, rfl⟩

/-- Settles O11: by the phases of the sequencer and the cases of `exec`, none of which reads P but to
write it. -/
theorem nothingReadsStatus : Obligations.NothingReadsStatus := by
  intro s t q h
  obtain ⟨t', r, h', hq⟩ := step_withStatus s q
  cases h.symm.trans h'
  exact ⟨r, hq⟩

end Sys2Proof.Machine

/-!
SUPPORT and PROOFS for the statements about memory (20_memory.md): the byte and word primitives,
that every step keeps memory canonical, and that a store is seen by the next fetch.
-/

namespace Sys2Proof.Machine

/-! ### Every step keeps memory canonical -/

/-- Memory is the same in `t` as in `s`, or differs by the one cell in which A has been stored. -/
def MemoryKeptOrStored (k : Params) (s t : State) : Prop :=
  t.mem = s.mem ∨ ∃ addr : Addr, addr.toNat < k.memSize.cells ∧
    t.mem = writeCell s.mem addr.toNat s.a

/-- Of what an instruction can do, only a store writes memory. -/
theorem execCase_memory {i : Instr} {s t : State} (h : ExecCase i s t) :
    MemoryKeptOrStored hardware s t := by
  cases h with
  | store addr _ ha => exact .inr ⟨addr, lt_cells_of_ne_top ha, rfl⟩
  | load | tax | tay | inx | iny | halt | fault => exact .inl rfl

/-- Fetching writes no memory, whichever error it ends in. -/
theorem fetchCase_error_mem {s t : State} (h : FetchCase s (.error t)) : t.mem = s.mem := by
  cases h <;> rfl

/-- Of the operations that complete, only a store writes memory. -/
theorem performCase_memory {k : Params} {o : Operation} {mode : AddrMode} {s t : State}
    (h : PerformCase k o mode s (.ok t)) : MemoryKeptOrStored k s t := by
  cases h with
  | store addr _ _ ha => exact .inr ⟨addr, ha, rfl⟩
  | load | setX | setY | halt => exact .inl rfl

/-- Of the phases, only Executing writes memory, and there only a store. -/
theorem phaseCase_memory {k : Params} {s t : State} (h : PhaseCase k s t) :
    MemoryKeptOrStored k s t := by
  cases h with
  | execute o _ _ _ hp => exact performCase_memory (s := dispatched s) hp
  | idle | fetch | fetchFault | decode | noDescriptor | noOperation | executeFault | advance =>
    exact .inl rfl

/-- The invariant speaks of memory only. -/
theorem memoryInv_of_mem_eq {s t : State} (h : t.mem = s.mem) (hs : MemoryInv s) : MemoryInv t := by
  rwa [MemoryInv, h]

/-- A store in a cell that exists keeps memory canonical and inside the cells. -/
theorem memoryInv_of_keptOrStored {s t : State} (h : MemoryKeptOrStored hardware s t)
    (hs : MemoryInv s) : MemoryInv t := by
  rcases h with h | ⟨addr, ha, h⟩
  · exact memoryInv_of_mem_eq h hs
  · obtain ⟨hwf, hin⟩ := hs
    rw [MemoryInv, h]
    exact ⟨wf_writeCell hwf _ _, within_writeCell hin ha _⟩

/-- Settles O6: by the cases of a step, in each of which memory is kept or A stored in a cell. -/
theorem stepKeepsMemoryInv : Obligations.StepKeepsMemoryInv := by
  intro s t hs hstep
  rcases step_cases s with ⟨-, h⟩ | ⟨-, h⟩ | ⟨-, ⟨u, hu, h⟩ | ⟨i, -, h⟩⟩
  · cases h.symm.trans hstep
    exact hs
  · cases h.symm.trans hstep
    exact sequencerStep_keeps (fun _ _ hp => memoryInv_of_keptOrStored (phaseCase_memory hp)) s hs
  · cases h.symm.trans hstep
    exact memoryInv_of_mem_eq (fetchCase_error_mem hu) hs
  · exact memoryInv_of_keptOrStored (execCase_memory (execCase_of_exec (h.symm.trans hstep))) hs

/-! ### The byte write -/

/-- The cell just written reads as the byte. -/
theorem readByte_writeByte_same {k : Params} {m m' : Memory} {addr : Addr} {v : Byte}
    (h : writeByte k m addr v = .ok m') : readByte k m' addr = .ok v := by
  obtain ⟨hlt, rfl⟩ := writeByte_eq_ok h
  rw [readByte_of_lt hlt, readCell_writeCell_same]

/-- Every other address reads as before, 0xFFFF included. -/
theorem readByte_writeByte_ne {k : Params} {m m' : Memory} {addr b : Addr} {v : Byte}
    (h : writeByte k m addr v = .ok m') (hb : b ≠ addr) : readByte k m' b = readByte k m b := by
  obtain ⟨-, rfl⟩ := writeByte_eq_ok h
  rw [readByte, readByte, readCell_writeCell_ne fun he => hb (BitVec.eq_of_toNat_eq he)]

/-- Settles O1: where the address is a cell, the two laws above; elsewhere there is no write. -/
theorem byteWriteChangesOneCell : Obligations.ByteWriteChangesOneCell := by
  refine fun k m addr v => ⟨fun hlt => ?_, writeByte_of_le v⟩
  have h := writeByte_of_lt (m := m) v hlt
  exact ⟨_, h, readByte_writeByte_same h, fun _ => readByte_writeByte_ne h⟩

/-! ### The word read -/

section
variable {k : Params} {m : Memory} {addr : Addr}

theorem readWord_of_ok {lo hi : Byte} (hlo : readByte k m addr = .ok lo)
    (hhi : readByte k m (addr + 1) = .ok hi) : readWord k m addr = .ok (wordOf hi lo) := by
  simp only [readWord, hlo, hhi]

theorem readWord_of_low_error {e : FatalError} (h : readByte k m addr = .error e) :
    readWord k m addr = .error e := by
  simp only [readWord, h]

theorem readWord_of_high_error {lo : Byte} {e : FatalError} (hlo : readByte k m addr = .ok lo)
    (h : readByte k m (addr + 1) = .error e) : readWord k m addr = .error e := by
  simp only [readWord, hlo, h]

end

/-- With 65535 cells, 0xFFFF is none of them. -/
theorem readByte_top {k : Params} (hk : k.memSize = .cells65535) (m : Memory) :
    readByte k m 0xFFFF = .error (.memoryRangeFault 0xFFFF) :=
  readByte_of_le (by simp [hk])

/-- Settles O2: by the two byte reads; at 0xFFFE the second, at 0xFFFF the first is at 0xFFFF. -/
theorem wordReadIsTwoByteReads : Obligations.WordReadIsTwoByteReads := by
  refine fun k m addr => ⟨fun lo hi hlo hhi => ⟨_, readWord_of_ok hlo hhi, wordOf_toNat hi lo⟩,
    fun _ => readWord_of_low_error, fun _ _ => readWord_of_high_error, fun hk => ⟨?_, ?_⟩⟩
  · have hlo : (0xFFFE : Addr).toNat < k.memSize.cells := by simp [hk]
    exact readWord_of_high_error (readByte_of_lt hlo) (readByte_top hk m)
  · exact readWord_of_low_error (readByte_top hk m)

/-! ### The word write -/

section
variable {k : Params} {m m₁ m₂ : Memory} {addr v : Addr}

theorem writeWord_of_ok (hlo : writeByte k m addr (loByte v) = .ok m₁)
    (hhi : writeByte k m₁ (addr + 1) (hiByte v) = .ok m₂) : writeWord k m addr v = (m₂, none) := by
  simp only [writeWord, hlo, hhi]

theorem writeWord_of_low_error {e : FatalError}
    (h : writeByte k m addr (loByte v) = .error e) : writeWord k m addr v = (m, some e) := by
  simp only [writeWord, h]

theorem writeWord_of_high_error {e : FatalError} (hlo : writeByte k m addr (loByte v) = .ok m₁)
    (h : writeByte k m₁ (addr + 1) (hiByte v) = .error e) :
    writeWord k m addr v = (m₁, some e) := by
  simp only [writeWord, hlo, h]

end

/-- Below 0xFFFE both bytes of a word are cells, and two of them. -/
theorem word_addresses {addr : Addr} (h : addr.toNat < 0xFFFE) :
    addr ≠ 0xFFFF ∧ addr + 1 ≠ 0xFFFF ∧ addr ≠ addr + 1 := by
  refine ⟨?_, ?_, ?_⟩ <;> bv_omega

/-- Settles O3: by the two byte writes, each with its frame; the one at 0xFFFF fails. -/
theorem wordWriteIsLittleEndian : Obligations.WordWriteIsLittleEndian := by
  intro m addr v
  refine ⟨fun h => ?_, ?_, ?_⟩
  · obtain ⟨hlo, hhi, hne⟩ := word_addresses h
    have h₁ := writeByte_hardware m (loByte v) hlo
    have h₂ := writeByte_hardware (writeCell m addr.toNat (loByte v)) (hiByte v) hhi
    refine ⟨_, writeWord_of_ok h₁ h₂, ?_, readByte_writeByte_same h₂, fun b hb hb' => ?_⟩
    · rw [readByte_writeByte_ne h₂ hne, readByte_writeByte_same h₁]
    · rw [readByte_writeByte_ne h₂ hb', readByte_writeByte_ne h₁ hb]
  · rintro rfl
    have h₁ := writeByte_hardware m (loByte v) (addr := 0xFFFE) (by decide)
    exact ⟨_, writeWord_of_high_error h₁ (writeByte_hardware_top _ _),
      readByte_writeByte_same h₁, fun _ => readByte_writeByte_ne h₁⟩
  · rintro rfl
    exact writeWord_of_low_error (writeByte_hardware_top _ _)

/-- Settles O4: the word read puts the two bytes together that the word write took apart. -/
theorem wordRoundTrip : Obligations.WordRoundTrip := by
  intro m addr x h
  obtain ⟨hwrite, -, -⟩ := wordWriteIsLittleEndian m addr x
  obtain ⟨m', hw, hlo, hhi, -⟩ := hwrite (by omega)
  exact ⟨m', hw, by rw [readWord_of_ok hlo hhi, wordOf_hiByte_loByte]⟩

/-! ### A store is seen by the next fetch -/

/-- The pointer at a zero-page address, as a number. -/
theorem zpWord_toNat (s : State) (p : Byte) :
    ∃ w, zpWord hardware s.mem p = .ok w ∧ w.toNat = pointerAt s p.toNat := by
  refine ⟨_, zpWord_hardware s.mem p, ?_⟩
  rw [wordOf_toNat, pointerAt, cellAt, cellAt]
  omega

/-- The address of an indexed-indirect operand is the pointer at its indexed address (R75). -/
theorem eaIzx_toNat (d8 : Byte) (s : State) :
    ∃ addr, eaIzx hardware d8 s = .ok addr ∧ addr.toNat = pointerAt s (zpSum d8 s.x) := by
  have h : (d8 + s.x).toNat = zpSum d8 s.x := BitVec.toNat_add d8 s.x
  simpa only [eaIzx, h] using zpWord_toNat s (d8 + s.x)

/-- The address of an indirect-indexed operand is the pointer at the operand, indexed (R76). -/
theorem eaIzy_toNat (d8 : Byte) (s : State) :
    ∃ addr, eaIzy hardware d8 s = .ok addr ∧
      addr.toNat = absSum (pointerAt s d8.toNat) s.y := by
  obtain ⟨w, hw, hn⟩ := zpWord_toNat s d8
  exact ⟨eaAbsIndexed w s.y, by rw [eaIzy, hw], by rw [eaAbsIndexed_toNat, hn, absSum]⟩

/-- A store instruction runs at its data address. -/
theorem exec_store_dataAddress {i : Instr} (hi : i.operation = .storeAccumulator) (s : State) :
    ∃ ea addr, exec i s = runStore i ea s ∧ ea (enterInstr i s) = .ok addr ∧
      dataAddress i s = some addr.toNat := by
  cases i with
  | staZp d8 =>
    exact ⟨fun _ => .ok (eaZp d8), _, rfl, rfl, congrArg some (eaZp_toNat d8).symm⟩
  | staZpx d8 =>
    exact ⟨fun t => .ok (eaZpIndexed d8 t.x), _, rfl, rfl,
      congrArg some (eaZpIndexed_toNat d8 s.x).symm⟩
  | staAbs a16 => exact ⟨fun _ => .ok a16, _, rfl, rfl, rfl⟩
  | staAbx a16 =>
    exact ⟨fun t => .ok (eaAbsIndexed a16 t.x), _, rfl, rfl,
      congrArg some (eaAbsIndexed_toNat a16 s.x).symm⟩
  | staAby a16 =>
    exact ⟨fun t => .ok (eaAbsIndexed a16 t.y), _, rfl, rfl,
      congrArg some (eaAbsIndexed_toNat a16 s.y).symm⟩
  | staIzx d8 =>
    obtain ⟨addr, h, hn⟩ := eaIzx_toNat d8 s
    exact ⟨eaIzx hardware d8, addr, rfl, h, congrArg some hn.symm⟩
  | staIzy d8 =>
    obtain ⟨addr, h, hn⟩ := eaIzy_toNat d8 s
    exact ⟨eaIzy hardware d8, addr, rfl, h, congrArg some hn.symm⟩
  | brk | tax | tay | inx | iny => cases hi
  | ldaImm | ldaZp | ldaZpx | ldaAbs | ldaAbx | ldaAby | ldaIzx | ldaIzy => cases hi

/-- After a store at an address that is a cell, the address reads A. -/
theorem exec_store_reads {i : Instr} {s t : State} {n : Nat}
    (hi : i.operation = .storeAccumulator) (hn : dataAddress i s = some n) (htop : n ≠ 0xFFFF)
    (h : exec i s = .next t) : readByte hardware t.mem (BitVec.ofNat 16 n) = .ok s.a := by
  obtain ⟨ea, addr, hrun, hea, hd⟩ := exec_store_dataAddress hi s
  obtain rfl : addr.toNat = n := Option.some.inj (hd.symm.trans hn)
  rw [BitVec.ofNat_toNat, BitVec.setWidth_eq]
  rcases runStore_ok hea with ⟨ha, h'⟩ | ⟨rfl, -⟩
  · cases (h'.symm.trans hrun.symm).trans h
    exact readByte_writeByte_same (writeByte_hardware s.mem s.a ha)
  · exact absurd rfl htop

/-- Fetching latches the byte at PC and goes on to Decoding (R111). -/
theorem fetchPhase_of_ok {k : Params} {s : State} {b : Byte} (h : readByte k s.mem s.pc = .ok b) :
    fetchPhase k s = fetched b s := by
  simp only [fetchPhase, h]

/-- Each of a run of bytes is what a byte read at its own address answers. -/
theorem readByte_of_readBytes {k : Params} {m : Memory} {n : Nat} :
    ∀ {addr : Addr} {bs : List Byte}, readBytes k m addr n = .ok bs →
      ∀ (j : Nat) (h : j < bs.length), readByte k m (addr + BitVec.ofNat 16 j) = .ok bs[j] := by
  induction n with
  | zero =>
    intro addr bs h j hj
    cases h
    cases hj
  | succ n ih =>
    intro addr bs h j hj
    rw [readBytes] at h
    split at h
    · cases h
    · rename_i b hb
      split at h
      · cases h
      · rename_i bs' hbs
        cases h
        cases j with
        | zero => simpa using hb
        | succ j =>
          have haddr : addr + BitVec.ofNat 16 (j + 1) = addr + 1 + BitVec.ofNat 16 j := by bv_omega
          rw [haddr, List.getElem_cons_succ]
          exact ih hbs j (by simpa using hj)

/-- Settles O46: the cell reads A, and every fetched byte is a byte read at its own address. -/
theorem storeSeenByNextFetch : Obligations.StoreSeenByNextFetch := by
  intro i s t n hi hn htop h
  have hread := exec_store_reads hi hn htop h
  refine ⟨fun hpc => ?_, fun len bs hbs j hj haddr => ?_⟩
  · rw [← hpc] at hread
    rw [fetchPhase_of_ok hread]
    exact ⟨rfl, rfl⟩
  · have hb := readByte_of_readBytes hbs j hj
    rw [haddr, hread] at hb
    exact (Except.ok.inj hb).symm

end Sys2Proof.Machine

/-!
SUPPORT and PROOFS for the statements about the encoding (30_encoding.md): decoding and encoding are
inverse, which opcode bytes are refused, and that the sequencer runs what the decoder reads.
-/

namespace Sys2Proof

/-! ### The decoder, by its table row and its operand -/

/-- Every instruction is well-formed, and its opcode looks up its own row. -/
theorem tableRow : ∀ i : Instr, Laws.TableRow.Statement i
  | .brk => Laws.TableRow.brk
  | .tay => Laws.TableRow.tay
  | .tax => Laws.TableRow.tax
  | .iny => Laws.TableRow.iny
  | .inx => Laws.TableRow.inx
  | .staIzx d8 => Laws.TableRow.staIzx d8
  | .staZp d8 => Laws.TableRow.staZp d8
  | .staIzy d8 => Laws.TableRow.staIzy d8
  | .staZpx d8 => Laws.TableRow.staZpx d8
  | .staAbs a16 => Laws.TableRow.staAbs a16
  | .staAby a16 => Laws.TableRow.staAby a16
  | .staAbx a16 => Laws.TableRow.staAbx a16
  | .ldaIzx d8 => Laws.TableRow.ldaIzx d8
  | .ldaZp d8 => Laws.TableRow.ldaZp d8
  | .ldaImm d8 => Laws.TableRow.ldaImm d8
  | .ldaIzy d8 => Laws.TableRow.ldaIzy d8
  | .ldaZpx d8 => Laws.TableRow.ldaZpx d8
  | .ldaAbs a16 => Laws.TableRow.ldaAbs a16
  | .ldaAby a16 => Laws.TableRow.ldaAby a16
  | .ldaAbx a16 => Laws.TableRow.ldaAbx a16

theorem Instr.wf_eq_true (i : Instr) : i.wf = true :=
  have ⟨hwf, _, _⟩ := tableRow i
  hwf

theorem length_encode (i : Instr) : (encode i).length = i.len.toNat :=
  have ⟨_, hlen, _⟩ := tableRow i
  hlen

theorem rowOf_opcode (i : Instr) :
    rowOf i.opcode = some ⟨i.opcode, i.operation, i.mode, i.len⟩ :=
  have ⟨_, _, hrow⟩ := tableRow i
  hrow

/-- A byte without a row is refused. -/
theorem decode_of_rowOf_none {op : Byte} (h : rowOf op = none) (bs : List Byte) :
    decode (op :: bs) = .error (.unsupportedOpcode op) := by
  simp only [decode, h]

/-- A byte with a row is decoded by the row's operation and tag. -/
theorem decode_of_rowOf_some {op : Byte} {r : OpcodeRow} (h : rowOf op = some r) (bs : List Byte) :
    decode (op :: bs) = assemble r.operation r.mode bs := by
  simp only [decode, h]

/-- An instruction is assembled from its own operand bytes. -/
theorem assemble_operandBytes (i : Instr) (rest : List Byte) :
    assemble i.operation i.mode (i.operandBytes ++ rest) = .ok (i, rest) := by
  cases i with
  | brk | tay | tax | iny | inx => rfl
  | staIzx | staZp | staIzy | staZpx | ldaIzx | ldaZp | ldaImm | ldaIzy | ldaZpx => rfl
  | staAbs a16 | staAby a16 | staAbx a16 | ldaAbs a16 | ldaAby a16 | ldaAbx a16 =>
    simp [Instr.operation, Instr.mode, Instr.operandBytes, assemble, takeA16]

/-- An instruction decodes from its own encoding, whatever follows it. -/
theorem decode_encode_append (i : Instr) (rest : List Byte) :
    decode (encode i ++ rest) = .ok (i, rest) := by
  rw [encode, List.cons_append, decode_of_rowOf_some (rowOf_opcode i), assemble_operandBytes]

/-- Settles O12: the opcode looks up the instruction's own row, whose operation and tag assemble the
instruction from its operand bytes. -/
theorem decodeOfEncode : Obligations.DecodeOfEncode := fun i rest _ => decode_encode_append i rest

/-! ### What assembling an instruction can answer -/

/-- All that assembling can answer: an instruction of the operation and the tag, its operand bytes in
front of the rest, or one of two errors. -/
inductive AssembleCase (o : Operation) (m : AddrMode) (bs : List Byte) :
    Except DecodeError (Instr × List Byte) → Prop where
  | ok (i : Instr) (rest : List Byte) (ho : i.operation = o) (hm : i.mode = m)
      (hbs : bs = i.operandBytes ++ rest) : AssembleCase o m bs (.ok (i, rest))
  | truncated : AssembleCase o m bs (.error .truncated)
  | unsupportedPairing : AssembleCase o m bs (.error (.unsupportedPairing o m))

/-- Taking a one-byte operand is a case of assembling. -/
theorem takeD8_case {o : Operation} {m : AddrMode} {c : Byte → Instr} (bs : List Byte)
    (hc : ∀ d8, (c d8).operation = o ∧ (c d8).mode = m ∧ (c d8).operandBytes = [d8]) :
    AssembleCase o m bs (takeD8 c bs) := by
  cases bs with
  | nil => exact .truncated
  | cons d8 rest =>
    obtain ⟨ho, hm, hb⟩ := hc d8
    exact .ok (c d8) rest ho hm (by rw [hb, List.singleton_append])

/-- Taking a two-byte operand is a case of assembling. -/
theorem takeA16_case {o : Operation} {m : AddrMode} {c : Addr → Instr} (bs : List Byte)
    (hc : ∀ a16, (c a16).operation = o ∧ (c a16).mode = m ∧
      (c a16).operandBytes = [loByte a16, hiByte a16]) :
    AssembleCase o m bs (takeA16 c bs) := by
  match bs with
  | [] | [_] => exact .truncated
  | lo :: hi :: rest =>
    obtain ⟨ho, hm, hb⟩ := hc (wordOf hi lo)
    exact .ok (c (wordOf hi lo)) rest ho hm (by simp [hb])

/-- Assembling answers one of the cases. -/
theorem assemble_cases (o : Operation) (m : AddrMode) (bs : List Byte) :
    AssembleCase o m bs (assemble o m bs) := by
  cases o with
  | loadAccumulator =>
    cases m with
    | imm | zp | zpx | izx | izy => exact takeD8_case bs fun _ => ⟨rfl, rfl, rfl⟩
    | abs | abx | aby => exact takeA16_case bs fun _ => ⟨rfl, rfl, rfl⟩
    | zpy | none => exact .unsupportedPairing
  | storeAccumulator =>
    cases m with
    | zp | zpx | izx | izy => exact takeD8_case bs fun _ => ⟨rfl, rfl, rfl⟩
    | abs | abx | aby => exact takeA16_case bs fun _ => ⟨rfl, rfl, rfl⟩
    | imm | zpy | none => exact .unsupportedPairing
  | transferAccumulatorToX | transferAccumulatorToY | incrementX | incrementY | halt =>
    cases m with
    | none => exact .ok _ bs rfl rfl rfl
    | imm | zp | zpx | zpy | abs | abx | aby | izx | izy => exact .unsupportedPairing

theorem assemble_eq_ok {o : Operation} {m : AddrMode} {bs rest : List Byte} {i : Instr}
    (h : assemble o m bs = .ok (i, rest)) :
    i.operation = o ∧ i.mode = m ∧ bs = i.operandBytes ++ rest := by
  have hc := assemble_cases o m bs
  rw [h] at hc
  cases hc with
  | ok _ _ ho hm hbs => exact ⟨ho, hm, hbs⟩

/-- The opcode byte is refused by the lookup only, never by assembling. -/
theorem assemble_ne_unsupportedOpcode (o : Operation) (m : AddrMode) (bs : List Byte) (op : Byte) :
    assemble o m bs ≠ .error (.unsupportedOpcode op) := by
  intro h
  have hc := assemble_cases o m bs
  rw [h] at hc
  cases hc

/-! ### Each encoding has one meaning -/

/-- A row is determined by its operation and its tag. -/
theorem opcodeRows_inj : ∀ r ∈ opcodeRows, ∀ r' ∈ opcodeRows,
    r.operation = r'.operation → r.mode = r'.mode → r = r' := by decide

/-- A row of the map is the row of any instruction with its operation and its tag. -/
theorem opcode_of_mem_opcodeRows {r : OpcodeRow} {i : Instr} (hr : r ∈ opcodeRows)
    (ho : i.operation = r.operation) (hm : i.mode = r.mode) : i.opcode = r.opcode :=
  congrArg OpcodeRow.opcode (opcodeRows_inj _ (rowOf_eq_some (rowOf_opcode i)).1 r hr ho hm)

/-- What decodes to an instruction is its encoding and the rest. -/
theorem eq_encode_append_of_decode {bs rest : List Byte} {i : Instr}
    (h : decode bs = .ok (i, rest)) : bs = encode i ++ rest := by
  cases bs with
  | nil => cases h
  | cons op bs =>
    cases hr : rowOf op with
    | none => cases (decode_of_rowOf_none hr bs).symm.trans h
    | some r =>
      obtain ⟨hmem, rfl⟩ := rowOf_eq_some hr
      rw [decode_of_rowOf_some hr] at h
      obtain ⟨ho, hm, rfl⟩ := assemble_eq_ok h
      rw [encode, opcode_of_mem_opcodeRows hmem ho hm, List.cons_append]

/-- Settles O13: the row the opcode looked up is the instruction's own, since operation and tag
determine a row. -/
theorem encodeOfDecode : Obligations.EncodeOfDecode := fun _ _ i h =>
  ⟨eq_encode_append_of_decode h, i.wf_eq_true⟩

/-! ### The legal opcode bytes -/

/-- The decoder refuses an opcode byte exactly when no row has it. -/
theorem decode_eq_unsupportedOpcode_iff (op : Byte) (rest : List Byte) :
    decode (op :: rest) = .error (.unsupportedOpcode op) ↔ rowOf op = none := by
  refine ⟨fun h => ?_, fun h => decode_of_rowOf_none h rest⟩
  cases hr : rowOf op with
  | none => rfl
  | some r =>
    rw [decode_of_rowOf_some hr] at h
    exact absurd h (assemble_ne_unsupportedOpcode _ _ _ _)

theorem rowOf_eq_none_iff_not_legal (op : Byte) :
    rowOf op = none ↔ op ∉ Machine.legalOpcodes := by
  rw [rowOf_eq_none, ← opcodeRows_opcodes, List.mem_map]
  exact ⟨fun h ⟨r, hr, he⟩ => h r hr he, fun h r hr he => h ⟨r, hr, he⟩⟩

/-- Settles O14: the refused bytes have no row, and the rows' bytes are the legal ones. -/
theorem illegalOpcodesRefused : Obligations.IllegalOpcodesRefused := fun op rest =>
  (decode_eq_unsupportedOpcode_iff op rest).trans (rowOf_eq_none_iff_not_legal op)

/-- Settles O15: each word is the encoding of its instruction, which decodes from it. -/
theorem specWordsDecode : Obligations.SpecWordsDecode :=
  ⟨decode_encode_append (.ldaImm 0x05) [], decode_encode_append (.ldaZp 0x10) [],
    decode_encode_append (.ldaIzx 0x00) [], decode_encode_append (.staZpx 0x20) [],
    decode_encode_append (.staAbs 0x0200) [], decode_encode_append (.ldaAbx 0x0200) [],
    decode_encode_append (.staIzy 0x40) [], decode_encode_append .inx [],
    decode_encode_append .brk []⟩

end Sys2Proof

namespace Sys2Proof.Machine

/-! ### The bytes at PC are the instruction that runs -/

/-- One byte more is read before the bytes above it. -/
theorem readBytes_succ_eq_ok {k : Params} {m : Memory} {addr : Addr} {n : Nat} {b : Byte}
    {bs : List Byte} : readBytes k m addr (n + 1) = .ok (b :: bs) ↔
      readByte k m addr = .ok b ∧ readBytes k m (addr + 1) n = .ok bs := by
  rw [readBytes]
  cases readByte k m addr with
  | error e => simp
  | ok b' => cases readBytes k m (addr + 1) n <;> simp

/-- A first part of the bytes read is what reading as many bytes answers. -/
theorem readBytes_of_append {k : Params} {m : Memory} {cs : List Byte} (bs : List Byte) :
    ∀ {addr : Addr} {n : Nat}, readBytes k m addr n = .ok (bs ++ cs) →
      readBytes k m addr bs.length = .ok bs := by
  induction bs with
  | nil => exact fun _ => rfl
  | cons b bs ih =>
    intro addr n h
    cases n with
    | zero => cases h
    | succ n =>
      obtain ⟨hb, hbs⟩ := readBytes_succ_eq_ok.mp h
      exact readBytes_succ_eq_ok.mpr ⟨hb, ih hbs⟩

theorem length_operandBytes (i : Instr) : i.operandBytes.length = i.len.operands := by
  have h : i.operandBytes.length + 1 = i.len.operands + 1 :=
    (length_encode i).trans (operands_add_one i.len).symm
  omega

/-- Where an instruction's encoding stands at PC, fetching answers the instruction. -/
theorem fetchInstr_of_encode {s : State} {i : Instr}
    (h : readBytes hardware s.mem s.pc (encode i).length = .ok (encode i)) :
    fetchInstr s = .ok i := by
  obtain ⟨hop, hbs⟩ := readBytes_succ_eq_ok.mp h
  rw [length_operandBytes] at hbs
  have hd : decode (i.opcode :: i.operandBytes) = .ok (i, []) := by
    simpa [encode] using decode_encode_append i []
  simp only [fetchInstr, hop, hardware_optable, hardware_opsel, rowOf_opcode, Option.map_some, hbs,
    hd]

/-- Where bytes that decode to an instruction stand at PC, fetching answers the instruction. -/
theorem fetchInstr_of_decode {s : State} {n : Nat} {bs rest : List Byte} {i : Instr}
    (hb : readBytes hardware s.mem s.pc n = .ok bs) (hd : decode bs = .ok (i, rest)) :
    fetchInstr s = .ok i := by
  rw [eq_encode_append_of_decode hd] at hb
  exact fetchInstr_of_encode (readBytes_of_append (encode i) hb)

/-! ### Bytes placed at PC -/

/-- Placing bytes at a cell writes the first there and places the others above it. -/
theorem placeBytes_cons (m : Memory) {addr : Addr} (h : addr ≠ 0xFFFF) (b : Byte)
    (bs : List Byte) :
    placeBytes m addr (b :: bs) = placeBytes (writeCell m addr.toNat b) (addr + 1) bs := by
  rw [placeBytes, writeByte_hardware m b h]

/-- Below 0xFFFF the next address does not wrap. -/
theorem toNat_add_one {addr : Addr} (h : addr.toNat < 0xFFFF) :
    (addr + 1).toNat = addr.toNat + 1 := by
  bv_omega

theorem ne_top_of_lt {addr : Addr} (h : addr.toNat < 0xFFFF) : addr ≠ 0xFFFF := by
  bv_omega

/-- Placing bytes leaves the cells below them alone. -/
theorem readCell_placeBytes_of_lt (bs : List Byte) : ∀ (m : Memory) {addr : Addr} {n : Nat},
    n < addr.toNat → addr.toNat + bs.length ≤ 0xFFFF →
      readCell (placeBytes m addr bs) n = readCell m n := by
  induction bs with
  | nil => exact fun _ _ _ _ _ => rfl
  | cons b bs ih =>
    intro m addr n hn hl
    rw [List.length_cons] at hl
    have hlt : addr.toNat < 0xFFFF := by omega
    have hs := toNat_add_one hlt
    rw [placeBytes_cons m (ne_top_of_lt hlt), ih _ (by omega) (by omega),
      readCell_writeCell_ne (by omega)]

/-- Bytes placed below 0xFFFF are read back. -/
theorem readBytes_placeBytes (bs : List Byte) : ∀ (m : Memory) {addr : Addr},
    addr.toNat + bs.length ≤ 0xFFFF →
      readBytes hardware (placeBytes m addr bs) addr bs.length = .ok bs := by
  induction bs with
  | nil => exact fun _ _ _ => rfl
  | cons b bs ih =>
    intro m addr hl
    rw [List.length_cons] at hl
    have hlt : addr.toNat < 0xFFFF := by omega
    have hs := toNat_add_one hlt
    rw [placeBytes_cons m (ne_top_of_lt hlt)]
    refine readBytes_succ_eq_ok.mpr ⟨?_, ih _ (by omega)⟩
    rw [readByte_hardware _ (ne_top_of_lt hlt),
      readCell_placeBytes_of_lt bs _ (by omega) (by omega), readCell_writeCell_same]

theorem decodeTableWord_eq_some {n w : Nat} {i : Instr} (h : decodeTableWord n w = some i) :
    ∃ rest, decode (tableBytes n w) = .ok (i, rest) := by
  rw [decodeTableWord] at h
  split at h
  · rename_i j rest hd
    cases h
    exact ⟨rest, hd⟩
  · cases h

/-- Settles O42: the three placed bytes are read back at PC, so fetching answers what they decode
to. -/
theorem fetchWordRunsNext : Obligations.FetchWordRunsNext := by
  intro s n w i hpc h
  obtain ⟨rest, hd⟩ := decodeTableWord_eq_some h
  have hl : s.pc.toNat + (tableBytes n w).length ≤ 0xFFFF := Nat.add_le_add_right hpc 3
  have hb := readBytes_placeBytes (tableBytes n w) s.mem hl
  exact step_of_fetchInstr_ok rfl (fetchInstr_of_decode (s := s.withFetchWord n w) hb hd)

/-! ### Any table: a byte without a descriptor or without an operation -/

section
variable {k : Params} {s : State} {b : Byte}

/-- The first phase of a step reads the opcode byte. -/
theorem sequencerStep_of_readByte (hs : s.runState = .fetching)
    (hb : readByte k s.mem s.pc = .ok b) : sequencerStep k s = toBoundary k 3 (fetched b s) := by
  simp only [sequencerStep, phase, hs, fetchPhase_of_ok hb]

/-- Inside an instruction the run up to the boundary goes on by a phase. -/
theorem toBoundary_succ_of_inside
    (hs : s.runState = .decoding ∨ s.runState = .executing ∨ s.runState = .advancing) (n : Nat) :
    toBoundary k (n + 1) s = toBoundary k n (phase k s) := by
  rcases hs with hs | hs | hs <;> simp only [toBoundary, hs]

/-- An error taken ends the instruction. -/
theorem toBoundary_raise (e : FatalError) (s : State) (n : Nat) :
    toBoundary k n (raise e s) = raise e s := by
  cases n <;> rfl

/-- Without a descriptor the step ends in Decoding (R112). -/
theorem sequencerStep_of_no_descriptor (hs : s.runState = .fetching)
    (hb : readByte k s.mem s.pc = .ok b) (hd : k.optable b = none) :
    sequencerStep k s = raise .unsupportedOpcode (fetched b s) := by
  have h : phase k (fetched b s) = raise .unsupportedOpcode (fetched b s) := by
    simp only [phase, fetched_runState, decodePhase, fetched_op, hd]
  rw [sequencerStep_of_readByte hs hb, toBoundary_succ_of_inside (.inl rfl), h, toBoundary_raise]

/-- With a descriptor and without an operation the step ends in Executing (R113). -/
theorem sequencerStep_of_no_operation {d : Descriptor} (hs : s.runState = .fetching)
    (hb : readByte k s.mem s.pc = .ok b) (hd : k.optable b = some d) (ho : k.opsel b = none) :
    sequencerStep k s = raise .unsupportedOpcode (enter b d s) := by
  have h₁ : phase k (fetched b s) = decoded d (fetched b s) := by
    simp only [phase, fetched_runState, decodePhase, fetched_op, hd]
  have h₂ : phase k (decoded d (fetched b s)) = raise .unsupportedOpcode (enter b d s) := by
    simp only [phase, decoded_runState, executePhase, decoded_op, fetched_op, ho, enter]
  rw [sequencerStep_of_readByte hs hb, toBoundary_succ_of_inside (.inl rfl), h₁,
    toBoundary_succ_of_inside (.inr (.inl rfl)), h₂, toBoundary_raise]

end

/-- Settles O48: without a descriptor the error is raised in Decoding, with one in Executing;
both states have the registers, the flags and the memory of the state before. -/
theorem operationSetIsTheAuthority : Obligations.OperationSetIsTheAuthority := by
  intro k s b hs hb h
  cases hd : k.optable b with
  | none =>
    rw [sequencerStep_of_no_descriptor hs hb hd]
    exact ⟨rfl, rfl, rfl, rfl, rfl, rfl, rfl, rfl⟩
  | some d =>
    have ho : k.opsel b = none := h.resolve_left (by simp [hd])
    rw [sequencerStep_of_no_operation hs hb hd ho]
    exact ⟨rfl, rfl, rfl, rfl, rfl, rfl, rfl, rfl⟩

end Sys2Proof.Machine

/-!
SUPPORT and PROOFS for the statements about the resolver (40_addressing_resolver.md): the zero-page
pointer under any parameters, the operand at PC, and the address each tag makes of it.
-/

namespace Sys2Proof.Machine

/-! ### The zero-page pointer under any parameters -/

section
variable {k : Params}

/-- Without ZP_PTR_WRAP the high byte is in the cell above, which for 0xFF lies outside the zero
page. -/
theorem zpWord_of_no_wrap (hk : k.zpPtrWrap = false) (m : Memory) (p : Byte) :
    zpWord k m p = .ok (wordOf (readCell m (p.toNat + 1)) (readCell m p.toNat)) := by
  rw [zpWord, hk, if_neg Bool.false_ne_true]
  exact readWord_of_ok (readByte_zext16 k m p) (readByte_zext16_succ k m p)

/-- With ZP_PTR_WRAP the address of the high byte is a sum of bytes. -/
theorem zpWord_of_wrap (hk : k.zpPtrWrap = true) (m : Memory) (p : Byte) :
    zpWord k m p = .ok (wordOf (readCell m (p + 1).toNat) (readCell m p.toNat)) := by
  simp only [zpWord, hk, if_true, readByte_zext16]

end

theorem byte_toNat_add_one (p : Byte) :
    (p + 1).toNat = if p = 0xFF then 0 else p.toNat + 1 := by
  split
  · next h => rw [h]; rfl
  · bv_omega

/-- Settles O16: no byte read of a zero-page pointer faults; the sum of bytes wraps at 0xFF only. -/
theorem zeroPagePointer : Obligations.ZeroPagePointer := by
  intro k m p
  cases hk : k.zpPtrWrap with
  | false =>
    refine ⟨_, zpWord_of_no_wrap hk m p, ?_⟩
    rw [wordOf_toNat, if_neg (by simp)]
    omega
  | true =>
    refine ⟨_, zpWord_of_wrap hk m p, ?_⟩
    simp only [wordOf_toNat, byte_toNat_add_one, and_true]
    omega

/-! ### The operand at PC -/

section
variable {s : State} {f : Byte → Except FatalError Addr} {g : Addr → Except FatalError Addr}

theorem withOperandByte_of_ne_top (h : s.pc ≠ 0xFFFF) :
    withOperandByte hardware s f = f (cellAt s s.pc.toNat) := by
  rw [withOperandByte, readByte_hardware _ h, cellAt]

theorem withOperandByte_top (h : s.pc = 0xFFFF) :
    withOperandByte hardware s f = .error (.memoryRangeFault 0xFFFF) := by
  rw [withOperandByte, h, readByte_hardware_top]

/-- Below 0xFFFE both operand bytes are cells, the second one above the first. -/
theorem readWord_pc_of_lt (h : s.pc.toNat < 0xFFFE) :
    ∃ w, readWord hardware s.mem s.pc = .ok w ∧ w.toNat = pointerAt s s.pc.toNat := by
  obtain ⟨hlo, hhi, -⟩ := word_addresses h
  refine ⟨_, readWord_of_ok (readByte_hardware _ hlo) (readByte_hardware _ hhi), ?_⟩
  rw [toNat_add_one (by omega), wordOf_toNat, pointerAt, cellAt, cellAt]
  omega

/-- From 0xFFFE an operand byte is at 0xFFFF, the second one or the first. -/
theorem readWord_hardware_of_le {addr : Addr} (m : Memory) (h : 0xFFFE ≤ addr.toNat) :
    readWord hardware m addr = .error (.memoryRangeFault 0xFFFF) := by
  obtain ⟨-, -, -, hfaults⟩ := wordReadIsTwoByteReads hardware m addr
  obtain ⟨hstraddle, htop⟩ := hfaults rfl
  have hcases : addr = 0xFFFE ∨ addr = 0xFFFF := by bv_omega
  rcases hcases with rfl | rfl
  · exact hstraddle
  · exact htop

/-- What a tag with an operand byte resolves to, and where its operand byte is missing. -/
theorem withOperandByte_resolves {n : Nat}
    (hf : ∃ ea, f (cellAt s s.pc.toNat) = .ok ea ∧ ea.toNat = n) :
    (s.pc ≠ 0xFFFF → ∃ ea, withOperandByte hardware s f = .ok ea ∧ ea.toNat = n) ∧
    (s.pc = 0xFFFF → withOperandByte hardware s f = .error (.memoryRangeFault 0xFFFF)) := by
  refine ⟨fun h => ?_, withOperandByte_top⟩
  rw [withOperandByte_of_ne_top h]
  exact hf

/-- What a tag with an operand word resolves to, and where an operand byte is missing. -/
theorem withOperandWord_resolves {n : Nat}
    (hg : ∀ w : Addr, w.toNat = pointerAt s s.pc.toNat → ∃ ea, g w = .ok ea ∧ ea.toNat = n) :
    (s.pc.toNat < 0xFFFE → ∃ ea, withOperandWord hardware s g = .ok ea ∧ ea.toNat = n) ∧
    (0xFFFE ≤ s.pc.toNat →
      withOperandWord hardware s g = .error (.memoryRangeFault 0xFFFF)) := by
  refine ⟨fun h => ?_, fun h => ?_⟩
  · obtain ⟨w, hw, hn⟩ := readWord_pc_of_lt h
    rw [withOperandWord, hw]
    exact hg w hn
  · rw [withOperandWord, readWord_hardware_of_le _ h]

end

/-! ### The address each tag makes of its operand -/

/-- Settles O17: each tag's sum of bytes, made of the operand byte. -/
theorem zeroPageModeAddresses : Obligations.ZeroPageModeAddresses := by
  intro s mode n h
  simp only [List.mem_cons, Prod.mk.injEq, List.not_mem_nil, or_false] at h
  rcases h with ⟨rfl, rfl⟩ | ⟨rfl, rfl⟩ | ⟨rfl, rfl⟩
  · exact withOperandByte_resolves ⟨_, rfl, eaZp_toNat _⟩
  · exact withOperandByte_resolves ⟨_, rfl, eaZpIndexed_toNat _ s.x⟩
  · exact withOperandByte_resolves ⟨_, rfl, eaZpIndexed_toNat _ s.y⟩

/-- Settles O18: each tag's sum of words, made of the operand word. -/
theorem absoluteModeAddresses : Obligations.AbsoluteModeAddresses := by
  intro s mode n h
  simp only [List.mem_cons, Prod.mk.injEq, List.not_mem_nil, or_false] at h
  rcases h with ⟨rfl, rfl⟩ | ⟨rfl, rfl⟩ | ⟨rfl, rfl⟩
  · exact withOperandWord_resolves fun w hw => ⟨w, rfl, hw⟩
  · exact withOperandWord_resolves fun w hw => ⟨_, rfl, hw ▸ eaAbsIndexed_toNat w s.x⟩
  · exact withOperandWord_resolves fun w hw => ⟨_, rfl, hw ▸ eaAbsIndexed_toNat w s.y⟩

/-- Settles O19: each tag's pointer, which never faults, found from the operand byte. -/
theorem indirectModeAddresses : Obligations.IndirectModeAddresses := by
  intro s mode n h
  simp only [List.mem_cons, Prod.mk.injEq, List.not_mem_nil, or_false] at h
  rcases h with ⟨rfl, rfl⟩ | ⟨rfl, rfl⟩
  · exact withOperandByte_resolves (eaIzx_toNat _ s)
  · exact withOperandByte_resolves (eaIzy_toNat _ s)

end Sys2Proof.Machine

/-!
SUPPORT and PROOFS for the statements about loads and stores (41_load_store.md): the two operations
for any tag, what a completed and a faulted instruction leave, and each form at its data address.
-/

namespace Sys2Proof.Machine

/-! ### The operations for any tag -/

section
variable {k : Params} {mode : AddrMode} {s : State}

theorem loadAccumulator_of_resolved {ea : Addr} (h : effectiveAddress k mode s = .ok ea) :
    loadAccumulator k mode s = loadFrom k ea s := by
  rw [loadAccumulator, h, atAddress]

theorem loadAccumulator_of_unresolved {e : FatalError} (h : effectiveAddress k mode s = .error e) :
    loadAccumulator k mode s = .error e := by
  rw [loadAccumulator, h, atAddress]

theorem storeAccumulator_of_resolved {ea : Addr} (h : effectiveAddress k mode s = .ok ea) :
    storeAccumulator k mode s = storeTo k ea s := by
  rw [storeAccumulator, h, atAddress]

theorem storeAccumulator_of_unresolved {e : FatalError}
    (h : effectiveAddress k mode s = .error e) : storeAccumulator k mode s = .error e := by
  rw [storeAccumulator, h, atAddress]

end

/-- Settles O20: the operation is the byte read at the resolved address; `SetZN` gives the flags. -/
theorem loadAccumulatorAnyMode : Obligations.LoadAccumulatorAnyMode := by
  intro k mode s
  refine ⟨fun ea v hea hv => ?_, fun e => loadAccumulator_of_unresolved, fun ea e hea he => ?_⟩
  · refine ⟨setZN s.p v, flagsFrom_setZN s.p v, ?_⟩
    rw [loadAccumulator_of_resolved hea, loadFrom, hv]
    rfl
  · rw [loadAccumulator_of_resolved hea, loadFrom, he]

/-- Settles O21: the operation is the byte write at the resolved address, with its frame. -/
theorem storeAccumulatorAnyMode : Obligations.StoreAccumulatorAnyMode := by
  intro k mode s
  refine ⟨fun ea hea hlt => ?_, fun e => storeAccumulator_of_unresolved, fun ea hea hle => ?_⟩
  · have hw := writeByte_of_lt (m := s.mem) s.a hlt
    refine ⟨_, ?_, readByte_writeByte_same hw, fun b => readByte_writeByte_ne hw⟩
    rw [storeAccumulator_of_resolved hea, storeTo, hw]
    rfl
  · rw [storeAccumulator_of_resolved hea, storeTo, writeByte_of_le _ hle]

/-! ### What an instruction leaves -/

/-- Whatever an operation leaves in A, X, Y, P and memory, the sequencer's part of the state is that
of a completed instruction (R111 to R114). -/
theorem sequenced_advance_executed (i : Instr) (s : State) (a x y p : Byte) (m : Memory) :
    Sequenced i s (advance (executed
      { enterInstr i s with a := a, x := x, y := y, p := p, mem := m })) := by
  refine ⟨advance_pc_of_dispatched rfl rfl, ?_⟩
  simp

/-- A load instruction that read `v` (R81). -/
theorem loaded_setAccumulator (i : Instr) (v : Byte) (s : State) :
    Loaded i v s (advance (executed (setAccumulator v (enterInstr i s)))) := by
  have hseq := sequenced_advance_executed i s v s.x s.y (setZN s.p v) s.mem
  refine ⟨?_, flagsFrom_setZN s.p v, ?_, ?_, ?_, hseq⟩ <;> simp

/-- A store instruction that wrote A at a cell (R82). -/
theorem stored_setMemory (i : Instr) {s : State} {ea : Addr} {m : Memory}
    (hw : writeByte hardware s.mem ea s.a = .ok m) :
    Stored i ea s (advance (executed (setMemory m (enterInstr i s)))) := by
  have hseq := sequenced_advance_executed i s s.a s.x s.y s.p m
  refine ⟨readByte_writeByte_same hw, fun _ => readByte_writeByte_ne hw, ?_, ?_, ?_, ?_, hseq⟩ <;>
    simp

/-- An instruction whose data access was at 0xFFFF (60_exceptions.md R127, R131): the field laws of
`raise` and `enterInstr`, and for the record `faultRecord_enterInstr`. -/
theorem rangeFaulted_raise (i : Instr) (s : State) :
    RangeFaulted i s (raise (.memoryRangeFault 0xFFFF) (enterInstr i s)) := by
  simp [RangeFaulted]

/-! ### Each form at its data address -/

/-- A load instruction other than `LDA #d8` runs at its data address. -/
theorem exec_load_dataAddress {i : Instr} (hi : i.operation = .loadAccumulator)
    (hm : i.mode ≠ .imm) (s : State) :
    ∃ ea addr, exec i s = runLoad i ea s ∧ ea (enterInstr i s) = .ok addr ∧
      dataAddress i s = some addr.toNat := by
  cases i with
  | ldaImm d8 => exact absurd rfl hm
  | ldaZp d8 =>
    exact ⟨fun _ => .ok (eaZp d8), _, rfl, rfl, congrArg some (eaZp_toNat d8).symm⟩
  | ldaZpx d8 =>
    exact ⟨fun t => .ok (eaZpIndexed d8 t.x), _, rfl, rfl,
      congrArg some (eaZpIndexed_toNat d8 s.x).symm⟩
  | ldaAbs a16 => exact ⟨fun _ => .ok a16, _, rfl, rfl, rfl⟩
  | ldaAbx a16 =>
    exact ⟨fun t => .ok (eaAbsIndexed a16 t.x), _, rfl, rfl,
      congrArg some (eaAbsIndexed_toNat a16 s.x).symm⟩
  | ldaAby a16 =>
    exact ⟨fun t => .ok (eaAbsIndexed a16 t.y), _, rfl, rfl,
      congrArg some (eaAbsIndexed_toNat a16 s.y).symm⟩
  | ldaIzx d8 =>
    obtain ⟨addr, h, hn⟩ := eaIzx_toNat d8 s
    exact ⟨eaIzx hardware d8, addr, rfl, h, congrArg some hn.symm⟩
  | ldaIzy d8 =>
    obtain ⟨addr, h, hn⟩ := eaIzy_toNat d8 s
    exact ⟨eaIzy hardware d8, addr, rfl, h, congrArg some hn.symm⟩
  | brk | tax | tay | inx | iny => cases hi
  | staZp | staZpx | staAbs | staAbx | staAby | staIzx | staIzy => cases hi

section
variable {i : Instr} {s : State} {n : Nat}

/-- A load instruction completes at every data address but 0xFFFF, where it faults. -/
theorem exec_load_completesOrFaults (hi : i.operation = .loadAccumulator) (hm : i.mode ≠ .imm)
    (hn : dataAddress i s = some n) :
    (n ≠ 0xFFFF → ∃ t, exec i s = .next t ∧ Loaded i (cellAt s n) s t) ∧
    (n = 0xFFFF → ∃ t, exec i s = .next t ∧ RangeFaulted i s t) := by
  obtain ⟨ea, addr, hrun, hea, hd⟩ := exec_load_dataAddress hi hm s
  obtain rfl : addr.toNat = n := Option.some.inj (hd.symm.trans hn)
  rw [hrun]
  rcases runLoad_ok hea with ⟨hne, h⟩ | ⟨rfl, h⟩
  · exact ⟨fun _ => ⟨_, h, loaded_setAccumulator i _ s⟩,
      fun htop => absurd (BitVec.eq_of_toNat_eq htop) hne⟩
  · exact ⟨fun hne => absurd rfl hne, fun _ => ⟨_, h, rangeFaulted_raise i s⟩⟩

/-- A store instruction completes at every data address but 0xFFFF, where it faults. -/
theorem exec_store_completesOrFaults (hi : i.operation = .storeAccumulator)
    (hn : dataAddress i s = some n) :
    (n ≠ 0xFFFF → ∃ t, exec i s = .next t ∧ Stored i (BitVec.ofNat 16 n) s t) ∧
    (n = 0xFFFF → ∃ t, exec i s = .next t ∧ RangeFaulted i s t) := by
  obtain ⟨ea, addr, hrun, hea, hd⟩ := exec_store_dataAddress hi s
  obtain rfl : addr.toNat = n := Option.some.inj (hd.symm.trans hn)
  rw [hrun, BitVec.ofNat_toNat, BitVec.setWidth_eq]
  rcases runStore_ok hea with ⟨hne, h⟩ | ⟨rfl, h⟩
  · exact ⟨fun _ => ⟨_, h, stored_setMemory i (writeByte_hardware s.mem s.a hne)⟩,
      fun htop => absurd (BitVec.eq_of_toNat_eq htop) hne⟩
  · exact ⟨fun hne => absurd rfl hne, fun _ => ⟨_, h, rangeFaulted_raise i s⟩⟩

end

/-- A zero-page address is not 0xFFFF. -/
theorem byte_toNat_ne_top (d8 : Byte) : d8.toNat ≠ 0xFFFF := by
  have := d8.isLt
  omega

/-- Nor is an indexed one: the sum wraps at 256 (R70). -/
theorem zpSum_ne_top (d8 index : Byte) : zpSum d8 index ≠ 0xFFFF := by
  rw [zpSum]
  omega

/-! ### The load instructions -/

/-- Settles O22: the byte is the operand itself, so there is no data access that could fault. -/
theorem ldaImmediateCompletes : Obligations.LdaImmediateCompletes := fun d8 s =>
  ⟨_, rfl, loaded_setAccumulator (.ldaImm d8) d8 s⟩

/-- Settles O23: a zero-page address is never 0xFFFF. -/
theorem ldaZeroPageCompletes : Obligations.LdaZeroPageCompletes := by
  intro d8 s
  obtain ⟨hzp, -⟩ :=
    exec_load_completesOrFaults (i := .ldaZp d8) (s := s) rfl AddrMode.noConfusion rfl
  obtain ⟨hzpx, -⟩ :=
    exec_load_completesOrFaults (i := .ldaZpx d8) (s := s) rfl AddrMode.noConfusion rfl
  exact ⟨hzp (byte_toNat_ne_top d8), hzpx (zpSum_ne_top d8 s.x)⟩

/-- Settles O24: the number given for each form is its data address. -/
theorem ldaAbsoluteCompletesOrFaults : Obligations.LdaAbsoluteCompletesOrFaults := by
  intro a16 s i n h
  simp only [List.mem_cons, Prod.mk.injEq, List.not_mem_nil, or_false] at h
  rcases h with ⟨rfl, rfl⟩ | ⟨rfl, rfl⟩ | ⟨rfl, rfl⟩ <;>
    exact exec_load_completesOrFaults rfl AddrMode.noConfusion rfl

/-- Settles O25: the number given for each form is its data address, read through the pointer. -/
theorem ldaIndirectCompletesOrFaults : Obligations.LdaIndirectCompletesOrFaults := by
  intro d8 s i n h
  simp only [List.mem_cons, Prod.mk.injEq, List.not_mem_nil, or_false] at h
  rcases h with ⟨rfl, rfl⟩ | ⟨rfl, rfl⟩ <;>
    exact exec_load_completesOrFaults rfl AddrMode.noConfusion rfl

/-! ### The store instructions -/

/-- Settles O26: a zero-page address is never 0xFFFF. -/
theorem staZeroPageCompletes : Obligations.StaZeroPageCompletes := by
  intro d8 s
  obtain ⟨hzp, -⟩ := exec_store_completesOrFaults (i := .staZp d8) (s := s) rfl rfl
  obtain ⟨hzpx, -⟩ := exec_store_completesOrFaults (i := .staZpx d8) (s := s) rfl rfl
  exact ⟨hzp (byte_toNat_ne_top d8), hzpx (zpSum_ne_top d8 s.x)⟩

/-- Settles O27: the number given for each form is its data address. -/
theorem staAbsoluteCompletesOrFaults : Obligations.StaAbsoluteCompletesOrFaults := by
  intro a16 s i n h
  simp only [List.mem_cons, Prod.mk.injEq, List.not_mem_nil, or_false] at h
  rcases h with ⟨rfl, rfl⟩ | ⟨rfl, rfl⟩ | ⟨rfl, rfl⟩ <;>
    exact exec_store_completesOrFaults rfl rfl

/-- Settles O28: the number given for each form is its data address, read through the pointer in the
state before the store. -/
theorem staIndirectCompletesOrFaults : Obligations.StaIndirectCompletesOrFaults := by
  intro d8 s i n h
  simp only [List.mem_cons, Prod.mk.injEq, List.not_mem_nil, or_false] at h
  rcases h with ⟨rfl, rfl⟩ | ⟨rfl, rfl⟩ <;> exact exec_store_completesOrFaults rfl rfl

end Sys2Proof.Machine

/-!
SUPPORT and PROOFS for the statements about transfers and increments (42_transfer_increment.md): each
instruction is one write of an index register, and such a write has one frame.
-/

namespace Sys2Proof.Machine

/-! ### The register-only instructions as writes of an index register -/

/-- `TAX` writes A to X (R101). -/
theorem exec_tax (s : State) :
    exec .tax s = .next (advance (executed (setIndexX s.a (enterInstr .tax s)))) := rfl

/-- `TAY` writes A to Y (R102). -/
theorem exec_tay (s : State) :
    exec .tay s = .next (advance (executed (setIndexY s.a (enterInstr .tay s)))) := rfl

/-- `INX` writes the 8-bit sum to X (R103). -/
theorem exec_inx (s : State) :
    exec .inx s = .next (advance (executed (setIndexX (s.x + 1) (enterInstr .inx s)))) := rfl

/-- `INY` writes the 8-bit sum to Y (R104). -/
theorem exec_iny (s : State) :
    exec .iny s = .next (advance (executed (setIndexY (s.y + 1) (enterInstr .iny s)))) := rfl

/-! ### The frame of such a write -/

/-- `t` is `s` after an instruction that wrote X and nothing else but the flags of the new X. -/
def IndexXFrame (i : Instr) (s t : State) : Prop :=
  FlagsFrom t.x s.p t.p ∧ t.a = s.a ∧ t.y = s.y ∧ t.mem = s.mem ∧ Sequenced i s t

/-- `t` is `s` after an instruction that wrote Y and nothing else but the flags of the new Y. -/
def IndexYFrame (i : Instr) (s t : State) : Prop :=
  FlagsFrom t.y s.p t.p ∧ t.a = s.a ∧ t.x = s.x ∧ t.mem = s.mem ∧ Sequenced i s t

theorem indexXFrame_setIndexX (i : Instr) (v : Byte) (s : State) :
    IndexXFrame i s (advance (executed (setIndexX v (enterInstr i s)))) := by
  have hseq := sequenced_advance_executed i s s.a v s.y (setZN s.p v) s.mem
  refine ⟨flagsFrom_setZN s.p v, ?_, ?_, ?_, hseq⟩ <;> simp

theorem indexYFrame_setIndexY (i : Instr) (v : Byte) (s : State) :
    IndexYFrame i s (advance (executed (setIndexY v (enterInstr i s)))) := by
  have hseq := sequenced_advance_executed i s s.a s.x v (setZN s.p v) s.mem
  refine ⟨flagsFrom_setZN s.p v, ?_, ?_, ?_, hseq⟩ <;> simp

/-! ### The transfers and the increments -/

/-- Settles O29: the byte written is A. -/
theorem transfersComplete : Obligations.TransfersComplete := by
  refine ⟨rfl, rfl, fun s => ⟨?_, ?_⟩⟩
  · exact ⟨_, exec_tax s, rfl, indexXFrame_setIndexX .tax s.a s⟩
  · exact ⟨_, exec_tay s, rfl, indexYFrame_setIndexY .tay s.a s⟩

/-- Settles O30: the byte written is the sum of bytes, which wraps at 256. -/
theorem incrementsComplete : Obligations.IncrementsComplete := by
  refine ⟨rfl, rfl, fun s => ⟨?_, ?_⟩⟩
  · exact ⟨_, exec_inx s, BitVec.toNat_add s.x 1, indexXFrame_setIndexX .inx (s.x + 1) s⟩
  · exact ⟨_, exec_iny s, BitVec.toNat_add s.y 1, indexYFrame_setIndexY .iny (s.y + 1) s⟩

end Sys2Proof.Machine

/-!
SUPPORT and PROOFS for the statements about Halt and dispatch (43_halt_and_dispatch.md): the phases
one by one, that a step of the machine is a step of the sequencer, that PC rises and every run ends,
and that Halted is reached via Halt only.
-/

namespace Sys2Proof.Machine

/-! ### Whole instructions -/

/-- `BRK` goes to Halted from the state in which the operations run (R109). -/
theorem exec_brk (s : State) : exec .brk s = .next (halted (enterInstr .brk s)) := rfl

/-- Settles O31: from the boundary on only PC, the latches and the sequencer's state are written. -/
theorem haltCompletes : Obligations.HaltCompletes := by
  refine ⟨rfl, fun s => ⟨_, exec_brk s, halted_runState _, ?_⟩⟩
  simp [Instr.opcode, Instr.mode, Instr.len, AddrMode.formatLen]

/-- Settles O41: fetching answers what the bytes decode to. -/
theorem stepRunsDecodedInstruction : Obligations.StepRunsDecodedInstruction :=
  fun _ _ _ _ _ hs hb hd _ => step_of_fetchInstr_ok hs (fetchInstr_of_decode hb hd)

theorem ne_brk_of_operation {i : Instr} (h : i.operation ≠ .halt) : i ≠ .brk := by
  rintro rfl
  exact h rfl

/-- Settles O33: by the cases of `exec`. What goes on ends in Advancing with PC where dispatch found
it, and only Halt and a fault do not go on. -/
theorem controlIsSequential : Obligations.ControlIsSequential := by
  intro i s t h
  cases execCase_of_exec h with
  | load _ hi | store _ hi =>
    exact .inl ⟨rfl, ne_brk_of_operation (by simp [hi]), advance_pc_of_dispatched rfl rfl⟩
  | tax hi | tay hi | inx hi | iny hi =>
    exact .inl ⟨rfl, by simp [hi], advance_pc_of_dispatched rfl rfl⟩
  | halt hi => exact .inr (.inl ⟨rfl, hi, rfl⟩)
  | fault hi =>
    refine .inr (.inr ⟨rfl, ne_brk_of_operation ?_, rfl⟩)
    rcases hi with hi | hi <;> simp [hi]

/-! ### The phases, one equation each -/

section
variable {k : Params} {s : State}

theorem phase_of_fetching (hs : s.runState = .fetching) : phase k s = fetchPhase k s := by
  simp only [phase, hs]

theorem phase_of_decoding (hs : s.runState = .decoding) : phase k s = decodePhase k s := by
  simp only [phase, hs]

theorem phase_of_executing (hs : s.runState = .executing) : phase k s = executePhase k s := by
  simp only [phase, hs]

theorem phase_of_advancing (hs : s.runState = .advancing) : phase k s = advance s := by
  simp only [phase, hs]

/-- Halted and Faulted execute nothing (R115). -/
theorem phase_of_runOver (hs : RunOver s) : phase k s = s := by
  rcases hs with hs | hs <;> simp only [phase, hs]

/-- An opcode fetch that faults keeps PC (R111). -/
theorem fetchPhase_of_error {e : FatalError} (h : readByte k s.mem s.pc = .error e) :
    fetchPhase k s = raise e { s with opaddr := s.pc } := by
  simp only [fetchPhase, h]

theorem decodePhase_of_some {d : Descriptor} (h : k.optable s.op = some d) :
    decodePhase k s = decoded d s := by
  simp only [decodePhase, h]

theorem decodePhase_of_none (h : k.optable s.op = none) :
    decodePhase k s = raise .unsupportedOpcode s := by
  simp only [decodePhase, h]

theorem executePhase_of_none (h : k.opsel s.op = none) :
    executePhase k s = raise .unsupportedOpcode (dispatched s) := by
  simp only [executePhase, h]

theorem executePhase_of_ok {o : Operation} {t : State} (ho : k.opsel s.op = some o)
    (h : perform k o s.mode (dispatched s) = .ok t) : executePhase k s = t := by
  simp only [executePhase, ho, h]

theorem executePhase_of_error {o : Operation} {e : FatalError} (ho : k.opsel s.op = some o)
    (h : perform k o s.mode (dispatched s) = .error e) :
    executePhase k s = raise e (dispatched s) := by
  simp only [executePhase, ho, h]

/-- An operation that completes and is not Halt goes on to Advancing and leaves alone what Advancing
reads. -/
theorem performCase_frame {o : Operation} {mode : AddrMode} {t : State}
    (h : PerformCase k o mode s (.ok t)) (ho : o ≠ .halt) :
    t.runState = .advancing ∧ t.pc = s.pc ∧ t.preDispatchPC = s.preDispatchPC ∧ t.len = s.len := by
  cases h with
  | halt h => exact absurd h ho
  | load | store | setX | setY => exact ⟨rfl, rfl, rfl, rfl⟩

/-- Executing an operation other than Halt keeps PC and goes to Advancing or Faulted (R113). -/
theorem executePhase_frame {o : Operation} (ho : k.opsel s.op = some o) (hne : o ≠ .halt) :
    (executePhase k s).preDispatchPC = s.pc ∧ (executePhase k s).pc = s.pc ∧
      ((executePhase k s).runState = .advancing ∨ (executePhase k s).runState = .faulted) := by
  have hc := perform_cases k o s.mode (dispatched s)
  cases h : perform k o s.mode (dispatched s) with
  | ok t =>
    obtain ⟨hr, hpc, hd, -⟩ := performCase_frame (h ▸ hc) hne
    rw [executePhase_of_ok ho h]
    exact ⟨hd, hpc, .inl hr⟩
  | error e =>
    rw [executePhase_of_error ho h]
    exact ⟨rfl, rfl, .inr rfl⟩

end

/-- Settles O44: each clause is the equation of its phase. -/
theorem sequencerTransitions : Obligations.SequencerTransitions := by
  intro k s
  refine ⟨fun hs b hb => ?_, fun hs e he => ?_, fun hs d hd => ?_, fun hs hd => ?_,
    fun hs ho => ?_, fun hs ho => ?_, fun hs o ho hne => ?_, fun hs => ?_, phase_of_runOver⟩
  · rw [phase_of_fetching hs, fetchPhase_of_ok hb]
    exact ⟨rfl, rfl, rfl⟩
  · rw [phase_of_fetching hs, fetchPhase_of_error he]
    exact ⟨rfl, rfl⟩
  · rw [phase_of_decoding hs, decodePhase_of_some hd]
    exact ⟨rfl, rfl, rfl⟩
  · rw [phase_of_decoding hs, decodePhase_of_none hd]
    exact ⟨rfl, rfl⟩
  · rw [phase_of_executing hs, executePhase_of_none ho]
    exact ⟨rfl, rfl⟩
  · rw [phase_of_executing hs, executePhase_of_ok ho rfl]
    rfl
  · rw [phase_of_executing hs]
    exact executePhase_frame ho hne
  · rw [phase_of_advancing hs]
    rfl

/-- Settles O45: Advancing adds the number of operand bytes, which is the length less one. -/
theorem advancingComparesProgramCounter : Obligations.AdvancingComparesProgramCounter := by
  intro s
  refine ⟨fun h => ?_, fun h => ?_, rfl⟩
  · rw [advance_pc, if_pos h, BitVec.toNat_add, BitVec.toNat_ofNat, ← operands_add_one]
    omega
  · rw [advance_pc, if_neg h]

/-! ### A step of the sequencer, from the opcode fetch to the boundary -/

section
variable {k : Params} {s : State} {b : Byte} {d : Descriptor} {o : Operation}

/-- A state is at a boundary or inside an instruction (10_state.md R30). -/
theorem atBoundary_or_inside (s : State) : AtBoundary s ∨
    (s.runState = .decoding ∨ s.runState = .executing ∨ s.runState = .advancing) := by
  cases h : s.runState <;> simp [AtBoundary, h]

theorem ne_fetching_of_inside
    (hs : s.runState = .decoding ∨ s.runState = .executing ∨ s.runState = .advancing) :
    s.runState ≠ .fetching := by
  rcases hs with hs | hs | hs <;> simp [hs]

/-- At a boundary the run up to the boundary is over. -/
theorem toBoundary_of_atBoundary (h : AtBoundary s) (n : Nat) : toBoundary k n s = s := by
  cases n with
  | zero => rfl
  | succ n => rcases h with h | h | h <;> simp only [toBoundary, h]

theorem sequencerStep_of_runOver (h : RunOver s) : sequencerStep k s = s := by
  rw [sequencerStep, phase_of_runOver h, toBoundary_of_atBoundary (.inr h)]

/-- An opcode fetch that faults ends the step. -/
theorem sequencerStep_of_fetch_error {e : FatalError} (hs : s.runState = .fetching)
    (he : readByte k s.mem s.pc = .error e) :
    sequencerStep k s = raise e { s with opaddr := s.pc } := by
  rw [sequencerStep, phase_of_fetching hs, fetchPhase_of_error he, toBoundary_raise]

/-- An opcode byte with a descriptor brings the step through Decoding to Executing. -/
theorem sequencerStep_of_descriptor (hs : s.runState = .fetching)
    (hb : readByte k s.mem s.pc = .ok b) (hd : k.optable b = some d) :
    sequencerStep k s = toBoundary k 1 (executePhase k (decoded d (fetched b s))) := by
  rw [sequencerStep_of_readByte hs hb, toBoundary_succ_of_inside (.inl rfl),
    phase_of_decoding rfl, decodePhase_of_some hd, toBoundary_succ_of_inside (.inr (.inl rfl)),
    phase_of_executing rfl]

/-- Advancing is the last phase before the boundary. -/
theorem toBoundary_of_advancing (h : s.runState = .advancing) (n : Nat) :
    toBoundary k (n + 1) s = advance s := by
  rw [toBoundary_succ_of_inside (.inr (.inr h)), phase_of_advancing h,
    toBoundary_of_atBoundary (.inl rfl)]

/-- A step whose operation answers a state to advance, or an error, is that answer's conclusion. -/
theorem sequencerStep_of_perform {r : Except FatalError State} (hs : s.runState = .fetching)
    (hb : readByte k s.mem s.pc = .ok b) (hd : k.optable b = some d) (ho : k.opsel b = some o)
    (hr : perform k o d.mode (enter b d s) = r.map executed) :
    sequencerStep k s = conclude (enter b d s) r := by
  rw [sequencerStep_of_descriptor hs hb hd]
  cases r with
  | error e => rw [executePhase_of_error ho hr, toBoundary_raise]; rfl
  | ok t => rw [executePhase_of_ok ho hr, toBoundary_of_advancing rfl]; rfl

/-- A step whose operation is Halt ends in Halted (R109). -/
theorem sequencerStep_of_halt (hs : s.runState = .fetching)
    (hb : readByte k s.mem s.pc = .ok b) (hd : k.optable b = some d)
    (ho : k.opsel b = some .halt) : sequencerStep k s = halted (enter b d s) := by
  rw [sequencerStep_of_descriptor hs hb hd, executePhase_of_ok ho rfl,
    toBoundary_of_atBoundary (.inr (.inl rfl))]
  rfl

end

/-! ### An instruction that passes the top of memory -/

section
variable {k : Params} {mode : AddrMode} {s : State} (hk : k.memSize = .cells65535)
include hk

/-- A word read depends on no parameter but MEM_SIZE. -/
theorem readWord_eq_hardware (m : Memory) (addr : Addr) :
    readWord k m addr = readWord hardware m addr := by
  have hbyte : ∀ a : Addr, readByte k m a = readByte hardware m a := fun a => by
    rw [readByte, hk]
    rfl
  simp only [readWord, hbyte]

/-- Where an operand byte of a tag lies past the last cell, the resolver faults on it; for IMM, which
reads no operand byte, it answers 0xFFFF. -/
theorem effectiveAddress_past_top (hm : mode ≠ .none)
    (h : 65535 < s.pc.toNat + mode.formatLen.operands) :
    effectiveAddress k mode s = .error (.memoryRangeFault 0xFFFF) ∨
      effectiveAddress k mode s = .ok 0xFFFF := by
  have hlt := s.pc.isLt
  cases mode with
  | none => exact absurd rfl hm
  | imm =>
    have hpc : s.pc = 0xFFFF := by simp only [AddrMode.formatLen, InstrLen.operands] at h; bv_omega
    exact .inr (congrArg _ hpc)
  | zp | zpx | zpy | izx | izy =>
    have hpc : s.pc = 0xFFFF := by simp only [AddrMode.formatLen, InstrLen.operands] at h; bv_omega
    refine .inl ?_
    simp only [effectiveAddress, withOperandByte, hpc, readByte_top hk]
  | abs | abx | aby =>
    have hpc : 0xFFFE ≤ s.pc.toNat := by
      simp only [AddrMode.formatLen, InstrLen.operands] at h; omega
    refine .inl ?_
    simp only [effectiveAddress, withOperandWord, readWord_eq_hardware hk,
      readWord_hardware_of_le _ hpc]

/-- Neither a load nor a store completes at 0xFFFF. -/
theorem loadFrom_top : loadFrom k 0xFFFF s = .error (.memoryRangeFault 0xFFFF) := by
  rw [loadFrom, readByte_top hk]

theorem storeTo_top : storeTo k 0xFFFF s = .error (.memoryRangeFault 0xFFFF) := by
  rw [storeTo, writeByte_of_le _ (by rw [hk]; decide)]

/-- A load or store with an operand byte past the last cell faults at 0xFFFF. -/
theorem perform_past_top {o : Operation} (ho : o = .loadAccumulator ∨ o = .storeAccumulator)
    (hm : mode ≠ .none) (h : 65535 < s.pc.toNat + mode.formatLen.operands) :
    perform k o mode s = .error (.memoryRangeFault 0xFFFF) := by
  rcases ho with rfl | rfl
  · rw [perform]
    rcases effectiveAddress_past_top hk hm h with he | he
    · rw [loadAccumulator_of_unresolved he]
      rfl
    · rw [loadAccumulator_of_resolved he, loadFrom_top hk]
      rfl
  · rw [perform]
    rcases effectiveAddress_past_top hk hm h with he | he
    · rw [storeAccumulator_of_unresolved he]
      rfl
    · rw [storeAccumulator_of_resolved he, storeTo_top hk]
      rfl

end

/-- A well-formed pairing is a load or store with a tag, or an operation of one byte (R60). -/
theorem pairWf_cases {o : Operation} {mode : AddrMode} {len : InstrLen}
    (h : pairWf o mode len = true) :
    len = mode.formatLen ∧
      ((o = .loadAccumulator ∨ o = .storeAccumulator) ∧ mode ≠ .none ∨ len = .one) := by
  obtain ⟨hlen, hfit⟩ := Bool.and_eq_true_iff.mp h
  obtain rfl : len = mode.formatLen := eq_of_beq hlen
  refine ⟨rfl, ?_⟩
  cases o with
  | loadAccumulator => exact .inl ⟨.inl rfl, by simpa [modeFitsOperation] using hfit⟩
  | storeAccumulator =>
    have hm : mode ≠ .none ∧ mode ≠ .imm := by simpa [modeFitsOperation] using hfit
    exact .inl ⟨.inr rfl, hm.1⟩
  | transferAccumulatorToX | transferAccumulatorToY | incrementX | incrementY | halt =>
    obtain rfl : mode = .none := eq_of_beq hfit
    exact .inr rfl

/-- What a well-paired operation with an operand byte past the last cell does: it faults. -/
theorem perform_pairWf_past_top {k : Params} (hk : k.memSize = .cells65535) {o : Operation}
    {d : Descriptor} {s : State} (hwf : pairWf o d.mode d.len = true)
    (h : 65535 < s.pc.toNat + d.len.operands) :
    perform k o d.mode s = .error (.memoryRangeFault 0xFFFF) := by
  obtain ⟨hlen, ⟨ho, hm⟩ | hone⟩ := pairWf_cases hwf
  · exact perform_past_top hk ho hm (hlen ▸ h)
  · rw [hone, InstrLen.operands] at h
    have := s.pc.isLt
    omega

/-! ### The instruction in one call is the operation of the sequencer -/

/-- `out` is what the sequencer makes of the answer of the operation of `i`, with the operand bytes
read at PC. -/
def ConcludesPerform (i : Instr) (s : State) (out : Host.Outcome State Fault Refusal) : Prop :=
  ∃ r, out = .next (conclude (enterInstr i s) r) ∧
    perform hardware i.operation i.mode (enterInstr i s) = r.map executed

section
variable {i : Instr} {s : State} {ea : State → Except FatalError Addr}

theorem runLoad_concludesPerform (hi : i.operation = .loadAccumulator)
    (h : effectiveAddress hardware i.mode (enterInstr i s) = ea (enterInstr i s)) :
    ConcludesPerform i s (runLoad i ea s) :=
  ⟨_, rfl, by rw [hi, perform, loadAccumulator, h]⟩

theorem runStore_concludesPerform (hi : i.operation = .storeAccumulator)
    (h : effectiveAddress hardware i.mode (enterInstr i s) = ea (enterInstr i s)) :
    ConcludesPerform i s (runStore i ea s) :=
  ⟨_, rfl, by rw [hi, perform, storeAccumulator, h]⟩

end

section
variable {k : Params} {s : State}

/-- The resolver's operand byte is the one byte that follows the opcode. -/
theorem withOperandByte_of_readBytes {d8 : Byte} (h : readBytes k s.mem s.pc 1 = .ok [d8])
    (f : Byte → Except FatalError Addr) : withOperandByte k s f = f d8 := by
  obtain ⟨hb, -⟩ := readBytes_succ_eq_ok.mp h
  rw [withOperandByte, hb]

/-- The resolver's operand word is the two bytes that follow the opcode, the low byte first. -/
theorem withOperandWord_of_readBytes {a16 : Addr}
    (h : readBytes k s.mem s.pc 2 = .ok [loByte a16, hiByte a16])
    (f : Addr → Except FatalError Addr) : withOperandWord k s f = f a16 := by
  obtain ⟨hlo, h⟩ := readBytes_succ_eq_ok.mp h
  obtain ⟨hhi, -⟩ := readBytes_succ_eq_ok.mp h
  rw [withOperandWord, readWord_of_ok hlo hhi, wordOf_hiByte_loByte]

end

/-- Where the operand bytes of an instruction follow its opcode, its `exec` is what the sequencer
makes of its operation. -/
theorem exec_concludesPerform {i : Instr} {s : State} (hne : i ≠ .brk)
    (h : readBytes hardware s.mem (s.pc + 1) i.len.operands = .ok i.operandBytes) :
    ConcludesPerform i s (exec i s) := by
  cases i with
  | brk => exact absurd rfl hne
  | tax | tay | inx | iny => exact ⟨.ok _, rfl, rfl⟩
  | ldaImm d8 =>
    obtain ⟨hb, -⟩ := readBytes_succ_eq_ok.mp h
    refine ⟨loadFrom hardware (s.pc + 1) (enterInstr (.ldaImm d8) s), ?_, rfl⟩
    rw [loadFrom, enterInstr_mem, hb]
    rfl
  | ldaZp | ldaZpx | ldaIzx | ldaIzy =>
    simp only [exec, execLdaZp, execLdaZpx, execLdaIzx, execLdaIzy]
    exact runLoad_concludesPerform rfl (withOperandByte_of_readBytes (s := enterInstr _ s) h _)
  | ldaAbs | ldaAbx | ldaAby =>
    simp only [exec, execLdaAbs, execLdaAbx, execLdaAby]
    exact runLoad_concludesPerform rfl (withOperandWord_of_readBytes (s := enterInstr _ s) h _)
  | staZp | staZpx | staIzx | staIzy =>
    simp only [exec, execStaZp, execStaZpx, execStaIzx, execStaIzy]
    exact runStore_concludesPerform rfl (withOperandByte_of_readBytes (s := enterInstr _ s) h _)
  | staAbs | staAbx | staAby =>
    simp only [exec, execStaAbs, execStaAbx, execStaAby]
    exact runStore_concludesPerform rfl (withOperandWord_of_readBytes (s := enterInstr _ s) h _)

/-- Where an instruction's encoding stands at PC, its `exec` is the step of the sequencer. -/
theorem exec_eq_sequencerStep {i : Instr} {s : State} (hs : s.runState = .fetching)
    (h : readBytes hardware s.mem s.pc i.len.toNat = .ok (encode i)) :
    exec i s = .next (sequencerStep hardware s) := by
  rw [← operands_add_one] at h
  obtain ⟨hb, hbs⟩ := readBytes_succ_eq_ok.mp h
  have hd : hardware.optable i.opcode = some ⟨i.mode, i.len⟩ := by
    rw [hardware_optable, rowOf_opcode, Option.map_some]
  have ho : hardware.opsel i.opcode = some i.operation := by
    rw [hardware_opsel, rowOf_opcode, Option.map_some]
  by_cases hne : i = .brk
  · subst hne
    rw [exec_brk, sequencerStep_of_halt hs hb hd ho]
    rfl
  · obtain ⟨r, hexec, hr⟩ := exec_concludesPerform hne hbs
    rw [hexec, sequencerStep_of_perform hs hb hd ho hr]
    rfl

/-- Where fetching finds no instruction, it ends as the step of the sequencer does. -/
theorem fetchCase_error_eq_sequencerStep {s t : State} (hs : s.runState = .fetching)
    (h : FetchCase s (.error t)) : t = sequencerStep hardware s := by
  cases h with
  | opcodeFault hpc =>
    have he : readByte hardware s.mem s.pc = .error (.memoryRangeFault 0xFFFF) := by
      rw [hpc, readByte_hardware_top]
    exact (sequencerStep_of_fetch_error hs he).symm
  | unsupported b hb hr =>
    have hd : hardware.optable b = none := by rw [hardware_optable, hr, Option.map_none]
    exact (sequencerStep_of_no_descriptor hs hb hd).symm
  | operandFault r hb hr hl =>
    have hd : hardware.optable r.opcode = some ⟨r.mode, r.len⟩ := by
      rw [hardware_optable, hr, Option.map_some]
    have ho : hardware.opsel r.opcode = some r.operation := by
      rw [hardware_opsel, hr, Option.map_some]
    have hlt : s.pc.toNat < 0xFFFF := (readByte_eq_ok hb).1
    have hpast : 65535 < (s.pc + 1).toNat + r.len.operands := by
      rw [toNat_add_one hlt]
      have := operands_add_one r.len
      omega
    have hp := perform_pairWf_past_top (d := ⟨r.mode, r.len⟩)
      (s := enter r.opcode ⟨r.mode, r.len⟩ s) hardware_memSize
      (opcodeRows_wf r (rowOf_eq_some hr).1) hpast
    exact (sequencerStep_of_perform (r := .error _) hs hb hd ho hp).symm

/-- Settles O43: at Fetching by what fetching answers, an error or an instruction; inside an
instruction a step is the sequencer's own, and in Halted and Faulted both do nothing. -/
theorem stepRefinesSequencer : Obligations.StepRefinesSequencer := by
  intro s
  rcases step_cases s with ⟨hover, h⟩ | ⟨-, h⟩ | ⟨hs, ⟨t, hf, h⟩ | ⟨i, hf, h⟩⟩
  · rw [h, sequencerStep_of_runOver hover]
  · exact h
  · rw [h, fetchCase_error_eq_sequencerStep hs hf]
  · cases hf with
    | ok _ hb => rw [h, exec_eq_sequencerStep hs hb]

/-! ### Halted is reached via Halt only -/

/-- The state is Halted, or inside an instruction whose operation, Halt, is still to run. -/
def HaltAhead (k : Params) (s : State) : Prop :=
  s.runState = .halted ∨
    ((s.runState = .decoding ∨ s.runState = .executing) ∧ k.opsel s.op = some .halt)

section
variable {k : Params} {s t : State}

/-- Inside an instruction, a phase that leads to Halted or towards it is one of Halt's. -/
theorem haltAhead_of_phaseCase (h : PhaseCase k s t) (hs : s.runState ≠ .fetching)
    (ht : HaltAhead k t) : HaltAhead k s := by
  cases h with
  | idle => exact ht
  | fetch _ h | fetchFault h => exact absurd h hs
  | decode d h => exact .inr ⟨.inl h, by simpa [HaltAhead] using ht⟩
  | noDescriptor | noOperation | executeFault | advance => simp [HaltAhead] at ht
  | execute o t h ho hp =>
    cases hp with
    | halt hhalt => exact .inr ⟨.inr h, hhalt ▸ ho⟩
    | load | store | setX | setY => simp [HaltAhead] at ht

/-- So is the run of the phases up to the boundary. -/
theorem haltAhead_of_toBoundary (n : Nat) :
    ∀ {s : State}, HaltAhead k (toBoundary k n s) → HaltAhead k s := by
  induction n with
  | zero => exact id
  | succ n ih =>
    intro s h
    rcases atBoundary_or_inside s with hb | hin
    · rwa [toBoundary_of_atBoundary hb] at h
    · rw [toBoundary_succ_of_inside hin] at h
      exact haltAhead_of_phaseCase (phase_cases k s) (ne_fetching_of_inside hin) (ih h)

/-- A step from inside an instruction that ends in Halted is Halt's. -/
theorem haltAhead_of_sequencerStep (hs : s.runState ≠ .fetching)
    (h : (sequencerStep k s).runState = .halted) : HaltAhead k s :=
  haltAhead_of_phaseCase (phase_cases k s) hs (haltAhead_of_toBoundary 3 (.inl h))

/-- A step from Fetching that ends in Halted has read the opcode byte of Halt. -/
theorem halt_at_pc_of_sequencerStep (hs : s.runState = .fetching)
    (h : (sequencerStep k s).runState = .halted) :
    ∃ b, readByte k s.mem s.pc = .ok b ∧ k.opsel b = some .halt := by
  cases hb : readByte k s.mem s.pc with
  | error e =>
    rw [sequencerStep_of_fetch_error hs hb] at h
    cases h
  | ok b =>
    rw [sequencerStep_of_readByte hs hb] at h
    have hahead := haltAhead_of_toBoundary 3 (.inl h)
    exact ⟨b, rfl, by simpa [HaltAhead] using hahead⟩

end

/-- The one row of Halt has the opcode byte 0x00 (R109). -/
theorem opcodeRows_halt : ∀ r ∈ opcodeRows, r.operation = .halt → r.opcode = 0x00 := by decide

theorem eq_zero_of_opsel_halt {op : Byte} (h : hardware.opsel op = some .halt) : op = 0x00 := by
  rw [hardware_opsel, Option.map_eq_some_iff] at h
  obtain ⟨r, hr, ho⟩ := h
  obtain ⟨hmem, rfl⟩ := rowOf_eq_some hr
  exact opcodeRows_halt r hmem ho

/-- Settles O37: the phases of the sequencer lead to Halted through the operation Halt, whose only
opcode byte is 0x00; in Halted neither machine does anything. -/
theorem haltedOnlyViaHalt : Obligations.HaltedOnlyViaHalt := by
  refine ⟨fun s t hne hstep ht => ?_, fun s hs => ⟨?_, ?_, fun k => applyReset_runState k s⟩⟩
  · cases (stepRefinesSequencer s).symm.trans hstep
    by_cases hs : s.runState = .fetching
    · obtain ⟨b, hb, ho⟩ := halt_at_pc_of_sequencerStep hs ht
      exact .inl ⟨hs, eq_zero_of_opsel_halt ho ▸ hb⟩
    · obtain ⟨hin, ho⟩ := (haltAhead_of_sequencerStep hs ht).resolve_left hne
      exact .inr ⟨hin, eq_zero_of_opsel_halt ho⟩
  · rw [stepRefinesSequencer, sequencerStep_of_runOver (.inl hs)]
  · exact fun k n => sequencerRun_of_not_fetching (by simp [hs]) k n

/-! ### A step goes on to a boundary -/

/-- How many phases of an instruction are still to run (R110). -/
def phasesLeft : RunState → Nat
  | .decoding => 3
  | .executing => 2
  | .advancing => 1
  | .fetching | .halted | .faulted => 0

theorem atBoundary_iff_phasesLeft (s : State) : AtBoundary s ↔ phasesLeft s.runState = 0 := by
  cases h : s.runState <;> simp [AtBoundary, h, phasesLeft]

theorem phasesLeft_le_three (r : RunState) : phasesLeft r ≤ 3 := by
  cases r <;> decide

/-- Inside an instruction, a phase leaves fewer to run. -/
theorem phasesLeft_of_phaseCase {k : Params} {s t : State} (h : PhaseCase k s t)
    (hs : s.runState ≠ .fetching) : phasesLeft t.runState ≤ phasesLeft s.runState - 1 := by
  cases h with
  | idle h => rcases h with h | h <;> simp [h, phasesLeft]
  | fetch _ h | fetchFault h => exact absurd h hs
  | decode _ h | noDescriptor h | noOperation h | executeFault _ _ h | advance h =>
    simp [h, phasesLeft]
  | execute o t h ho hp => cases hp <;> simp [h, phasesLeft]

/-- With phases enough, the run up to the boundary reaches it. -/
theorem atBoundary_toBoundary (k : Params) (n : Nat) :
    ∀ s : State, phasesLeft s.runState ≤ n → AtBoundary (toBoundary k n s) := by
  induction n with
  | zero => exact fun s h => (atBoundary_iff_phasesLeft s).mpr (Nat.le_zero.mp h)
  | succ n ih =>
    intro s h
    rcases atBoundary_or_inside s with hb | hin
    · rwa [toBoundary_of_atBoundary hb]
    · rw [toBoundary_succ_of_inside hin]
      have := phasesLeft_of_phaseCase (phase_cases k s) (ne_fetching_of_inside hin)
      exact ih _ (by omega)

/-- Every step of the sequencer ends at a boundary, from wherever it starts. -/
theorem atBoundary_sequencerStep (k : Params) (s : State) : AtBoundary (sequencerStep k s) :=
  atBoundary_toBoundary k 3 _ (phasesLeft_le_three _)

/-! ### PC rises -/

/-- All that a step of the sequencer from Fetching to Fetching has done: an operation completed, and
PC is past its instruction. -/
theorem sequencerStep_goes_on {k : Params} {s : State} (hs : s.runState = .fetching)
    (ht : (sequencerStep k s).runState = .fetching) :
    ∃ b d o t, readByte k s.mem s.pc = .ok b ∧ k.optable b = some d ∧ k.opsel b = some o ∧
      perform k o d.mode (enter b d s) = .ok t ∧
      (sequencerStep k s).pc = s.pc + BitVec.ofNat 16 d.len.toNat := by
  cases hb : readByte k s.mem s.pc with
  | error e => rw [sequencerStep_of_fetch_error hs hb] at ht; cases ht
  | ok b =>
    cases hd : k.optable b with
    | none => rw [sequencerStep_of_no_descriptor hs hb hd] at ht; cases ht
    | some d =>
      cases ho : k.opsel b with
      | none => rw [sequencerStep_of_no_operation hs hb hd ho] at ht; cases ht
      | some o =>
        by_cases hne : o = .halt
        · subst hne
          rw [sequencerStep_of_halt hs hb hd ho] at ht
          cases ht
        · have hc := perform_cases k o d.mode (enter b d s)
          cases hp : perform k o d.mode (enter b d s) with
          | error e =>
            rw [sequencerStep_of_perform (r := .error e) hs hb hd ho hp] at ht
            cases ht
          | ok t =>
            obtain ⟨hr, hpc, hpre, hlen⟩ := performCase_frame (hp ▸ hc) hne
            refine ⟨b, d, o, t, rfl, hd, ho, hp, ?_⟩
            rw [sequencerStep_of_descriptor hs hb hd, executePhase_of_ok ho hp,
              toBoundary_of_advancing hr, advance_pc_of_dispatched hpc hpre, hlen, enter_len]

theorem toNat_bounds (l : InstrLen) : 1 ≤ l.toNat ∧ l.toNat ≤ 3 := by
  cases l <;> decide

/-- With 65535 cells and a well-formed table, an instruction that completes lies below 0xFFFF, so PC
rises past it without wrapping. -/
theorem pc_rises_of_goes_on {k : Params} {s : State} (hwf : k.WellFormed)
    (hk : k.memSize = .cells65535) (hs : s.runState = .fetching)
    (ht : (sequencerStep k s).runState = .fetching) :
    s.pc.toNat < (sequencerStep k s).pc.toNat ∧
      (sequencerStep k s).pc.toNat ≤ s.pc.toNat + 3 := by
  obtain ⟨b, d, o, t, hb, hd, ho, hp, hpc⟩ := sequencerStep_goes_on hs ht
  have hlt : s.pc.toNat < 65535 := by simpa [hk] using (readByte_eq_ok hb).1
  have hfit : (s.pc + 1).toNat + d.len.operands ≤ 65535 := by
    by_contra hpast
    have hfault := perform_pairWf_past_top hk (s := enter b d s) (hwf b d o hd ho)
      (by simpa using hpast)
    cases hp.symm.trans hfault
  have hadd := operands_add_one d.len
  obtain ⟨hmin, hmax⟩ := toNat_bounds d.len
  rw [toNat_add_one hlt] at hfit
  rw [hpc, BitVec.toNat_add, BitVec.toNat_ofNat]
  omega

/-- Settles O34: a step of the machine is a step of the sequencer on the default table. -/
theorem programCounterRises : Obligations.ProgramCounterRises := by
  intro s t hs hstep ht
  cases (stepRefinesSequencer s).symm.trans hstep
  exact pc_rises_of_goes_on hardware_wellFormed hardware_memSize hs ht

/-! ### Every run ends -/

theorem sequencerRun_of_runOver {s : State} (h : RunOver s) (k : Params) (n : Nat) :
    sequencerRun k n s = s :=
  sequencerRun_of_not_fetching (by rcases h with h | h <;> simp [h]) k n

/-- A run of as many instructions as there are addresses from PC up is over, since each raises PC. -/
theorem runOver_sequencerRun {k : Params} (hwf : k.WellFormed) (hk : k.memSize = .cells65535)
    (n : Nat) : ∀ s : State, s.runState = .fetching → 65536 ≤ s.pc.toNat + n →
      RunOver (sequencerRun k n s) := by
  induction n with
  | zero =>
    intro s _ hn
    have := s.pc.isLt
    omega
  | succ n ih =>
    intro s hs hn
    rw [sequencerRun, if_pos hs]
    rcases atBoundary_sequencerStep k s with ht | hover
    · obtain ⟨hrise, -⟩ := pc_rises_of_goes_on hwf hk hs ht
      exact ih _ ht (by omega)
    · rwa [sequencerRun_of_runOver hover]

/-- Settles O36: from any PC up there are at most 65536 addresses. -/
theorem everyRunOfAWellFormedTableEnds : Obligations.EveryRunOfAWellFormedTableEnds :=
  fun _ s hwf hk hs => runOver_sequencerRun hwf hk 65536 s hs (Nat.le_add_left 65536 s.pc.toNat)

/-- From a boundary, a run of the machine is a run of the sequencer. -/
theorem core_run_eq_sequencerRun (n : Nat) : ∀ s : State, AtBoundary s →
    Host.Core.run core n s = .next (sequencerRun hardware n s) := by
  induction n with
  | zero => exact fun s _ => core_run_zero s
  | succ n ih =>
    intro s hs
    rw [core_run_succ (stepRefinesSequencer s), ih _ (atBoundary_sequencerStep hardware s)]
    rcases hs with hs | hover
    · rw [sequencerRun, if_pos hs]
    · rw [sequencerStep_of_runOver hover, sequencerRun_of_runOver hover,
        sequencerRun_of_runOver hover]

/-- Settles O35: the first step leads to a boundary, and from there the run is the sequencer's. -/
theorem everyRunEnds : Obligations.EveryRunEnds := by
  intro s
  have hb := atBoundary_sequencerStep hardware s
  refine ⟨_, (core_run_succ (stepRefinesSequencer s) 65536).trans
    (core_run_eq_sequencerRun 65536 _ hb), ?_⟩
  rcases hb with ht | hover
  · exact everyRunOfAWellFormedTableEnds hardware _ hardware_wellFormed hardware_memSize ht
  · rwa [sequencerRun_of_runOver hover]

end Sys2Proof.Machine

/-!
SUPPORT and PROOFS for the statements about the fatal errors (60_exceptions.md): that each is a next
state, which byte or access raises it, and that nothing but PC has changed when one is raised.
-/

namespace Sys2Proof.Machine

/-! ### Every step answers a next state, and Faulted is the end of a run -/

/-- Settles O40: the state answered is the one the sequencer steps to. -/
theorem stepAlwaysAnswersNext : Obligations.StepAlwaysAnswersNext :=
  fun s => ⟨_, stepRefinesSequencer s⟩

/-- Settles O38: Faulted is one of the two ends of a run, and reset clears the record. -/
theorem faultedIsSticky : Obligations.FaultedIsSticky := by
  intro s hs
  have hover : RunOver s := .inr hs
  refine ⟨?_, sequencerRun_of_runOver hover,
    fun k => ⟨applyReset_runState k s, applyReset_fault k s⟩⟩
  rw [stepRefinesSequencer, sequencerStep_of_runOver hover]

/-! ### The opcode fetch and the opcode byte -/

/-- Settles O47: a byte that is not legal has no descriptor; such a byte faults under any table. -/
theorem unsupportedOpcodeFaults : Obligations.UnsupportedOpcodeFaults := by
  intro s b hs hb hillegal
  have hd : hardware.optable b = none := by
    rw [hardware_optable, (rowOf_eq_none_iff_not_legal b).mpr hillegal, Option.map_none]
  exact ⟨_, stepRefinesSequencer s, operationSetIsTheAuthority hardware s b hs hb (.inl hd)⟩

/-- An opcode fetch at 0xFFFF takes its error with PC kept (R127). -/
theorem step_at_top {s : State} (hs : s.runState = .fetching) (hpc : s.pc = 0xFFFF) :
    step s = .next (raise (.memoryRangeFault 0xFFFF) { s with opaddr := s.pc }) := by
  have he : readByte hardware s.mem s.pc = .error (.memoryRangeFault 0xFFFF) := by
    rw [hpc, readByte_hardware_top]
  rw [stepRefinesSequencer, sequencerStep_of_fetch_error hs he]

/-- Settles O49: the error taken at the top keeps PC, the registers and memory. -/
theorem fetchAtTopFaults : Obligations.FetchAtTopFaults := by
  intro s hs hpc
  refine ⟨_, step_at_top hs hpc, rfl, ⟨recordedOpcode s, ?_⟩, hpc, rfl, rfl, rfl, rfl, rfl⟩
  rw [raise_fault, faultRecord, hpc]
  rfl

/-! ### An instruction that passes the top of memory -/

/-- Settles O50: the operation of a well-formed row faults on an operand byte past the last cell, in
the state in which it runs. -/
theorem straddlingInstructionFaults : Obligations.StraddlingInstructionFaults := by
  intro s i hs hb hlong
  have hd : hardware.optable i.opcode = some ⟨i.mode, i.len⟩ := by
    rw [hardware_optable, rowOf_opcode, Option.map_some]
  have ho : hardware.opsel i.opcode = some i.operation := by
    rw [hardware_opsel, rowOf_opcode, Option.map_some]
  have hlt : s.pc.toNat < 0xFFFF := (readByte_eq_ok hb).1
  have hpast : 65535 < (enterInstr i s).pc.toNat + i.len.operands := by
    rw [enterInstr_pc, toNat_add_one hlt]
    have := operands_add_one i.len
    omega
  have hp := perform_pairWf_past_top (d := ⟨i.mode, i.len⟩) hardware_memSize
    (hardware_wellFormed i.opcode _ _ hd ho) hpast
  refine ⟨_, stepRefinesSequencer s, ?_⟩
  rw [sequencerStep_of_perform (r := .error _) hs hb hd ho hp]
  exact rangeFaulted_raise i s

/-! ### Errors are precise -/

/-- `t` is `s` after an instruction that has raised an error and changed nothing but PC, the latches
and the record (R131). -/
def PreciseError (s t : State) : Prop :=
  t.a = s.a ∧ t.x = s.x ∧ t.y = s.y ∧ t.p = s.p ∧ t.mem = s.mem ∧ t.opaddr = s.pc ∧
    ((s.pc = 0xFFFF ∧ t.pc = s.pc) ∨ (s.pc ≠ 0xFFFF ∧ t.pc = s.pc + 1)) ∧
    ((∃ op, t.fault = some (.unsupportedOpcode op s.pc)) ∨
      (∃ op, t.fault = some (.memoryRangeFault 0xFFFF s.pc op)))

section
variable {s : State}

theorem preciseError_opcodeFetch (hpc : s.pc = 0xFFFF) :
    PreciseError s (raise (.memoryRangeFault 0xFFFF) { s with opaddr := s.pc }) :=
  ⟨rfl, rfl, rfl, rfl, rfl, rfl, .inl ⟨hpc, rfl⟩, .inr ⟨_, rfl⟩⟩

theorem preciseError_unsupportedOpcode (hpc : s.pc ≠ 0xFFFF) (b : Byte) :
    PreciseError s (raise .unsupportedOpcode (fetched b s)) :=
  ⟨rfl, rfl, rfl, rfl, rfl, rfl, .inr ⟨hpc, rfl⟩, .inl ⟨b, rfl⟩⟩

theorem preciseError_rangeFault (hpc : s.pc ≠ 0xFFFF) (b : Byte) (d : Descriptor) :
    PreciseError s (raise (.memoryRangeFault 0xFFFF) (enter b d s)) :=
  ⟨rfl, rfl, rfl, rfl, rfl, rfl, .inr ⟨hpc, rfl⟩, .inr ⟨b, rfl⟩⟩

theorem pc_ne_top_of_readByte {b : Byte} (hb : readByte hardware s.mem s.pc = .ok b) :
    s.pc ≠ 0xFFFF :=
  ne_top_of_lt (readByte_eq_ok hb).1

/-- Whatever error fetching ends in is precise. -/
theorem preciseError_of_fetchCase {t : State} (h : FetchCase s (.error t)) : PreciseError s t := by
  cases h with
  | opcodeFault hpc => exact preciseError_opcodeFetch hpc
  | unsupported b hb => exact preciseError_unsupportedOpcode (pc_ne_top_of_readByte hb) b
  | operandFault r hb => exact preciseError_rangeFault (pc_ne_top_of_readByte hb) _ _

/-- The one error of executing an instruction, that of a data access, is precise. -/
theorem preciseError_of_execCase {i : Instr} {t : State} (hpc : s.pc ≠ 0xFFFF)
    (h : ExecCase i s t) (ht : t.runState = .faulted) : PreciseError s t := by
  cases h with
  | fault => exact preciseError_rangeFault hpc i.opcode ⟨i.mode, i.len⟩
  | load | store | tax | tay | inx | iny | halt => cases ht

end

/-- Settles O51: by the cases of a step from Fetching, which ends in an error of the fetch or in
what executing the instruction answers. -/
theorem errorsArePrecise : Obligations.ErrorsArePrecise := by
  intro s t hs hstep ht
  cases hf : fetchInstr s with
  | error u =>
    cases (step_of_fetchInstr_error hs hf).symm.trans hstep
    exact preciseError_of_fetchCase (hf ▸ fetchInstr_cases s)
  | ok i =>
    have hexec : exec i s = .next t := (step_of_fetchInstr_ok hs hf).symm.trans hstep
    have hfetch : FetchCase s (.ok i) := hf ▸ fetchInstr_cases s
    cases hfetch with
    | ok _ _ hfit =>
      obtain ⟨hmin, -⟩ := toNat_bounds i.len
      exact preciseError_of_execCase (ne_top_of_lt (by omega)) (execCase_of_exec hexec) ht

/-! ### What a phase puts on record -/

/-- What holds of the state of the phase that raises an error, by its kind (R126, R127, R129). -/
def RaiseCause (k : Params) (s : State) : FatalError → Prop
  | .unsupportedOpcode => k.optable s.op = none ∨ k.opsel s.op = none
  | .invalidAddressingModeUse => s.runState = .executing ∧ s.mode = .none ∧
      (k.opsel s.op = some .loadAccumulator ∨ k.opsel s.op = some .storeAccumulator)
  | .memoryRangeFault addr => k.memSize.cells ≤ addr.toNat

section
variable {k : Params} {s t : State}

theorem raiseCause_of_performCase {o : Operation} {e : FatalError} (hs : s.runState = .executing)
    (ho : k.opsel s.op = some o) (h : PerformCase k o s.mode (dispatched s) (.error e)) :
    RaiseCause k s e := by
  cases h with
  | noMode hls hm => exact ⟨hs, hm, by rw [ho]; simpa using hls⟩
  | range addr _ _ ha => exact ha

/-- A phase keeps the error record, or takes an error that has its cause. -/
theorem phaseCase_fault (h : PhaseCase k s t) :
    t.fault = s.fault ∨ ∃ e u, t.fault = some (faultRecord e u) ∧ RaiseCause k s e := by
  cases h with
  | idle | fetch | decode | advance => exact .inl rfl
  | execute o t hs ho hp =>
    cases hp with
    | load | store | setX | setY | halt => exact .inl rfl
  | fetchFault _ ha => exact .inr ⟨_, _, rfl, ha⟩
  | noDescriptor _ hd => exact .inr ⟨.unsupportedOpcode, _, rfl, .inl hd⟩
  | noOperation _ ho => exact .inr ⟨.unsupportedOpcode, _, rfl, .inr ho⟩
  | executeFault o e hs ho hp => exact .inr ⟨_, _, rfl, raiseCause_of_performCase hs ho hp⟩

/-- The record of `v` is that of `s`, or of an error that had its cause in a state with `I`. -/
def RecordedSince (k : Params) (I : State → Prop) (s v : State) : Prop :=
  v.fault = s.fault ∨ ∃ e t u, I t ∧ RaiseCause k t e ∧ v.fault = some (faultRecord e u)

theorem recordedSince_of_phaseCase {I : State → Prop} {v : State} (h : PhaseCase k t v) (ht : I t)
    (hr : RecordedSince k I s t) : RecordedSince k I s v := by
  rcases phaseCase_fault h with hkept | ⟨e, u, hrec, hcause⟩
  · rwa [RecordedSince, hkept]
  · exact .inr ⟨e, t, u, ht, hcause, hrec⟩

/-- What a step of the sequencer puts on record has its cause in one of the step's own states, with
whatever the phases keep. -/
theorem recordedSince_sequencerStep {I : State → Prop} (hI : ∀ t u, PhaseCase k t u → I t → I u)
    (hs : I s) : RecordedSince k I s (sequencerStep k s) :=
  (sequencerStep_keeps (Q := fun t => I t ∧ RecordedSince k I s t)
    (fun t u h ⟨ht, hr⟩ => ⟨hI t u h ht, recordedSince_of_phaseCase h ht hr⟩) s ⟨hs, .inl rfl⟩).2

theorem memoryRangeFault_of_faultRecord {e : FatalError} {addr opaddr : Addr} {op : Byte}
    (h : faultRecord e s = .memoryRangeFault addr opaddr op) : e = .memoryRangeFault addr := by
  cases e with
  | memoryRangeFault => cases h; rfl
  | unsupportedOpcode | invalidAddressingModeUse => cases h

theorem invalidMode_of_faultRecord {e : FatalError} {opaddr : Addr} {op : Byte}
    (h : faultRecord e s = .invalidAddressingModeUse op opaddr) :
    e = .invalidAddressingModeUse := by
  cases e with
  | invalidAddressingModeUse => rfl
  | unsupportedOpcode | memoryRangeFault => cases h

end

/-! ### MemoryRangeFault is the access at 0xFFFF of 65535 cells -/

/-- The one address that is no cell is 0xFFFF, where memory has 65535 cells (R127). -/
theorem top_of_cells_le {k : Params} {addr : Addr} (h : k.memSize.cells ≤ addr.toNat) :
    k.memSize = .cells65535 ∧ addr = 0xFFFF := by
  cases hk : k.memSize with
  | cells65535 =>
    rw [hk] at h
    exact ⟨rfl, eq_top_of_cells_le h⟩
  | cells65536 =>
    have := addr.isLt
    simp only [hk, cells_cells65536] at h
    omega

/-- Settles O53: a phase that puts such an error on record has had an access that is no cell. -/
theorem rangeFaultOnlyAtTop : Obligations.RangeFaultOnlyAtTop := by
  intro k s addr opaddr op h
  have hsince : RecordedSince k (fun _ => True) s (sequencerStep k s) :=
    recordedSince_sequencerStep (fun _ _ _ ht => ht) trivial
  rcases hsince with hkept | ⟨e, t, u, -, hcause, hrec⟩
  · exact .inl (hkept.symm.trans h)
  · obtain rfl := memoryRangeFault_of_faultRecord (Option.some.inj (hrec.symm.trans h))
    exact .inr (top_of_cells_le hcause)

/-! ### InvalidAddressingModeUse is a load or store paired with NONE -/

/-- A load or store under the tag NONE asks the resolver for an address it does not have (R77). -/
theorem perform_none (k : Params) (s : State) {o : Operation}
    (ho : o = .loadAccumulator ∨ o = .storeAccumulator) :
    perform k o .none s = .error .invalidAddressingModeUse := by
  rcases ho with rfl | rfl <;> rfl

/-- No well-formed pairing gives a load or store the tag NONE (R60). -/
theorem pairWf_none {o : Operation} (ho : o = .loadAccumulator ∨ o = .storeAccumulator)
    (l : InstrLen) : pairWf o .none l = false := by
  rcases ho with rfl | rfl <;> simp [pairWf, modeFitsOperation]

/-- In Executing the latches hold the descriptor of the opcode byte (R112). -/
def DescriptorLatched (k : Params) (s : State) : Prop :=
  s.runState = .executing → k.optable s.op = some ⟨s.mode, s.len⟩

section
variable {k : Params} {s t : State}

theorem descriptorLatched_of_phaseCase (h : PhaseCase k s t) (hs : DescriptorLatched k s) :
    DescriptorLatched k t := by
  cases h with
  | idle => exact hs
  | decode d _ hd => exact fun _ => hd
  | fetch | fetchFault | noDescriptor | noOperation | executeFault | advance =>
    exact RunState.noConfusion
  | execute o t _ _ hp =>
    cases hp with
    | load | store | setX | setY | halt => exact RunState.noConfusion

/-- With a well-formed table, the descriptor in the latches is not that of a load or store without a
tag. -/
theorem not_raiseCause_invalidMode (hwf : k.WellFormed) (hs : DescriptorLatched k s) :
    ¬ RaiseCause k s .invalidAddressingModeUse := by
  rintro ⟨hexec, hmode, hop⟩
  have hd := hmode ▸ hs hexec
  rcases hop with ho | ho
  · simpa [pairWf_none] using hwf s.op _ _ hd ho
  · simpa [pairWf_none] using hwf s.op _ _ hd ho

end

/-- Settles O52: the operation under NONE fails in the state in which it runs. Under a well-formed
table the phases of a step keep the descriptor in the latches, so none of them raises this error. -/
theorem invalidModeOnlyFromBadTable : Obligations.InvalidModeOnlyFromBadTable := by
  refine ⟨fun k s b l o hs hb hd ho hls => ?_, fun k s op opaddr hwf hs h => ?_⟩
  · rw [sequencerStep_of_perform (r := .error _) hs hb hd ho (perform_none k _ hls)]
    exact ⟨rfl, rfl, rfl, rfl, rfl, rfl, rfl, rfl⟩
  · have hstart : DescriptorLatched k s := by simp [DescriptorLatched, hs]
    have hsince := recordedSince_sequencerStep (fun _ _ => descriptorLatched_of_phaseCase) hstart
    rcases hsince with hkept | ⟨e, t, u, hlatch, hcause, hrec⟩
    · exact hkept.symm.trans h
    · obtain rfl := invalidMode_of_faultRecord (Option.some.inj (hrec.symm.trans h))
      exact absurd hcause (not_raiseCause_invalidMode hwf hlatch)

end Sys2Proof.Machine

/-!
SUPPORT and PROOFS for the statements about reset and the host (70_reset_and_hazards.md): the reset
vector, loading an image, and host writes.
-/

namespace Sys2Proof.Machine

/-! ### Reset -/

/-- Both cells of the reset vector exist, whatever MEM_SIZE is (R144). -/
theorem readWord_resetVector (k : Params) (m : Memory) :
    readWord k m resetVector = .ok (wordOf (readCell m 0xFFFD) (readCell m 0xFFFC)) := by
  have hcells : 0xFFFD < k.memSize.cells := by cases k.memSize <;> simp
  exact readWord_of_ok (readByte_of_lt (addr := 0xFFFC) (Nat.lt_of_succ_lt hcells))
    (readByte_of_lt (addr := 0xFFFD) hcells)

/-- Reset sets PC to the word at the vector. -/
theorem applyReset_pc (k : Params) (s : State) :
    (applyReset k s).pc = wordOf (readCell s.mem 0xFFFD) (readCell s.mem 0xFFFC) := by
  rw [applyReset, readWord_resetVector]

/-- Settles O54: PC is the vector's word; every other field is written, or kept, as the laws of
`applyReset` say. -/
theorem resetEffect : Obligations.ResetEffect := fun k s =>
  ⟨applyReset_a k s, applyReset_x k s, applyReset_p k s, applyReset_y k s, applyReset_mem k s,
    by rw [applyReset_pc, wordOf_toNat], applyReset_runState k s, applyReset_fault k s⟩

/-- Settles O55: in memory nobody has written the vector reads 0x0000, and the power-on A, X, P and
PC are overwritten. -/
theorem resetStateFromPowerOn : Obligations.ResetStateFromPowerOn := by
  intro a x p pc
  have hvector : readWord hardware [] resetVector = .ok 0x0000 := readWord_resetVector hardware []
  simp only [applyReset, State.powerOn, hvector, State.reset]

/-! ### Copying an image -/

/-- The cells below and above the image read as before. -/
theorem readCell_copyImage_outside (image : List Byte) : ∀ (m : Memory) {a n : Nat},
    n < a ∨ a + image.length ≤ n → readCell (copyImage m a image) n = readCell m n := by
  induction image with
  | nil => exact fun _ _ _ _ => rfl
  | cons b bs ih =>
    intro m a n h
    rw [List.length_cons] at h
    rw [copyImage, ih _ (by omega), readCell_writeCell_ne (by omega)]

/-- The cells of the image read as its bytes, in order. -/
theorem readCell_copyImage_getElem (image : List Byte) : ∀ (m : Memory) (a : Nat) {i : Nat}
    (h : i < image.length), readCell (copyImage m a image) (a + i) = image[i] := by
  induction image with
  | nil => exact fun _ _ _ h => absurd h (Nat.not_lt_zero _)
  | cons b bs ih =>
    intro m a i h
    cases i with
    | zero =>
      rw [copyImage, readCell_copyImage_outside bs _ (by omega)]
      exact readCell_writeCell_same m a b
    | succ i =>
      rw [copyImage, ← Nat.succ_add_eq_add_succ a i]
      exact ih _ _ (Nat.lt_of_succ_lt_succ h)

/-- An image that fits below `n` lists only cells below `n`. -/
theorem within_copyImage {n : Nat} (image : List Byte) : ∀ {m : Memory} {a : Nat},
    a + image.length ≤ n → m.within n = true → Memory.within n (copyImage m a image) = true := by
  induction image with
  | nil => exact fun _ h => h
  | cons b bs ih =>
    intro m a h hm
    rw [List.length_cons] at h
    exact ih (by omega) (within_writeCell hm (by omega) b)

/-! ### Loading -/

/-- The vector's two cells are written over the image (R148). -/
theorem loadedMemory_hardware (m : Memory) (image : List Byte) :
    loadedMemory hardware m image =
      writeCell (writeCell (copyImage m 0x8000 image) 0xFFFC 0x00) 0xFFFD 0x80 := by
  have hwrite := writeWord_of_ok
    (writeByte_hardware (copyImage m 0x8000 image) (loByte programBase) (addr := resetVector)
      (by decide))
    (writeByte_hardware _ (hiByte programBase) (addr := resetVector + 1) (by decide))
  exact congrArg Prod.fst hwrite

theorem readCell_loadedMemory_vector (m : Memory) (image : List Byte) :
    readCell (loadedMemory hardware m image) 0xFFFC = 0x00 ∧
      readCell (loadedMemory hardware m image) 0xFFFD = 0x80 := by
  rw [loadedMemory_hardware, readCell_writeCell_ne (by decide)]
  exact ⟨readCell_writeCell_same _ _ _, readCell_writeCell_same _ _ _⟩

/-- Beside the vector's cells, memory is the copied image. -/
theorem readCell_loadedMemory_ne (m : Memory) (image : List Byte) {n : Nat} (hlo : n ≠ 0xFFFC)
    (hhi : n ≠ 0xFFFD) :
    readCell (loadedMemory hardware m image) n = readCell (copyImage m 0x8000 image) n := by
  rw [loadedMemory_hardware, readCell_writeCell_ne hhi, readCell_writeCell_ne hlo]

theorem load_of_le {image : List Byte} (h : image.length ≤ 32767) (s : State) :
    load hardware image s = .next (setMemory (loadedMemory hardware s.mem image) s) :=
  if_pos h

theorem load_of_lt {image : List Byte} (h : 32767 < image.length) (s : State) :
    load hardware image s = .refused (.oversizedImage image.length) :=
  if_neg (Nat.not_le_of_lt h)

/-- A load that is not refused is of an image that fits. -/
theorem load_eq_next {image : List Byte} {s t : State} (h : load hardware image s = .next t) :
    image.length ≤ 32767 ∧ t = setMemory (loadedMemory hardware s.mem image) s := by
  rcases Nat.lt_or_ge 32767 image.length with hlen | hlen
  · cases (load_of_lt hlen s).symm.trans h
  · cases (load_of_le hlen s).symm.trans h
    exact ⟨hlen, rfl⟩

/-- Settles O57: the image is copied, then the vector written; the two writes and the copy each have
their frame. -/
theorem loadEffect : Obligations.LoadEffect := by
  refine fun image s => ⟨fun hlen => ?_, fun hlen => load_of_lt hlen s⟩
  obtain ⟨hlo, hhi⟩ := readCell_loadedMemory_vector s.mem image
  refine ⟨_, load_of_le hlen s, hlo, hhi, fun i hi hne hne' => ?_, fun n hne hne' hout => ?_⟩
  · rw [readCell_loadedMemory_ne _ _ hne hne', readCell_copyImage_getElem image _ _ hi]
  · rw [readCell_loadedMemory_ne _ _ hne hne', readCell_copyImage_outside image _ hout]

/-- Settles O58: reset takes PC from the vector the loader has written. -/
theorem loadAndRunStart : Obligations.LoadAndRunStart := by
  intro image s hlen
  have hload := load_of_le hlen s
  obtain ⟨hlo, hhi⟩ := readCell_loadedMemory_vector s.mem image
  refine ⟨_, _, hload, rfl, ?_, rfl, rfl, rfl, rfl, rfl, rfl, fun n => ?_⟩
  · rw [applyReset_pc, setMemory_mem, hlo, hhi]
    rfl
  · rw [loadAndRun, hload]

/-! ### Host writes -/

section
variable {k : Params} {addr : Addr} {v : Byte} {s t : State} {m : Memory}

theorem hostWrite_of_ok (hs : RunOver s) (hw : writeByte k s.mem addr v = .ok m) :
    hostWrite k addr v s = .next (setMemory m s) := by
  rcases hs with hs | hs <;> simp only [hostWrite, hs, hw]

theorem hostWrite_of_error {e : FatalError} (hs : RunOver s)
    (hw : writeByte k s.mem addr v = .error e) :
    hostWrite k addr v s = .refused (.hostWriteOutsideMemory addr) := by
  rcases hs with hs | hs <;> simp only [hostWrite, hs, hw]

theorem hostWrite_of_not_runOver (hs : ¬ RunOver s) :
    hostWrite k addr v s = .refused .hostWriteDuringRun := by
  cases hr : s.runState with
  | halted => exact absurd (.inl hr) hs
  | faulted => exact absurd (.inr hr) hs
  | fetching | decoding | executing | advancing => simp only [hostWrite, hr]

/-- A host write that is not refused is the byte write. -/
theorem hostWrite_eq_next (h : hostWrite k addr v s = .next t) :
    ∃ m, writeByte k s.mem addr v = .ok m ∧ t = setMemory m s := by
  by_cases hs : RunOver s
  · cases hw : writeByte k s.mem addr v with
    | ok m =>
      cases (hostWrite_of_ok hs hw).symm.trans h
      exact ⟨m, rfl, rfl⟩
    | error e => cases (hostWrite_of_error hs hw).symm.trans h
  · cases (hostWrite_of_not_runOver hs).symm.trans h

end

/-- Settles O59: at rest the host write is the byte write, with its frame; at 0xFFFF that fails. -/
theorem hostWriteOnlyAtRest : Obligations.HostWriteOnlyAtRest := by
  refine fun addr v s => ⟨fun hs hne => ?_, ?_, hostWrite_of_not_runOver⟩
  · have hw := writeByte_hardware s.mem v hne
    exact ⟨_, hostWrite_of_ok hs hw, readByte_writeByte_same hw, fun _ => readByte_writeByte_ne hw⟩
  · rintro hs rfl
    exact hostWrite_of_error hs (writeByte_hardware_top _ _)

/-! ### Memory stays canonical and inside the cells -/

/-- Settles O7: an image that is not refused ends below cell 65535, and so do the vector's cells; a
host write that is not refused is the byte write. -/
theorem hostKeepsMemoryInv : Obligations.HostKeepsMemoryInv := by
  rintro s t ⟨hwf, hin⟩
  refine ⟨fun image h => ?_, fun addr v h => ?_⟩
  · obtain ⟨hlen, rfl⟩ := load_eq_next h
    have hfit : programBase.toNat + image.length ≤ hardware.memSize.cells :=
      Nat.add_le_add_left hlen 0x8000
    exact ⟨wf_writeWord _ _ _ (wf_copyImage image _ hwf),
      within_writeWord _ _ _ (within_copyImage image hfit hin)⟩
  · obtain ⟨m, hw, rfl⟩ := hostWrite_eq_next h
    exact ⟨wf_writeByte hwf hw, within_writeByte (k := hardware) hin hw⟩

end Sys2Proof.Machine
